-- ==== Sys2Proof/Word.lean ====
section
/-! DEFINITION. The widths of the hardware's values (`00_scope.md` R5, R8). -/

namespace Sys2Proof

/-- A general register, a memory cell, a timer, a constant `nn`. -/
abbrev Byte := BitVec 8

/-- An instruction word, `I`, `pc`, a call-stack entry. -/
abbrev Word := BitVec 16

/-- A nibble of the instruction word: a register index `x` or `y`, the height `n`, a key number. -/
abbrev Nibble := BitVec 4

/-- The 12-bit address field `nnn`. -/
abbrev Addr := BitVec 12

/-- The framebuffer `FB[0..2047]` of `10_state.md` R29: bit `i` is the one-bit cell `FB[i]`. -/
abbrev Frame := BitVec 2048

/-- The keypad latch `KEY[0..15]` of `10_state.md` R30: bit `k` is `KEY[k]`. -/
abbrev KeySet := BitVec 16

end Sys2Proof
end

