-- ==== Sys2Proof/Syntax.lean ====
section
/-! DEFINITION. The 34 instructions of `30_encoding.md` R96, their mnemonics and formats, and the
assembly notation of R103. -/

namespace Sys2Proof

/-- A decoded instruction: one constructor per row of the opcode map (R96, R41), carrying the fields its
format gives it (R92). Register indices are 4 bits wide, so an index outside 0 to 15 cannot be written
(`10_state.md` R21). -/
inductive Instr where
  /-- `00E0` -/
  | clearScreen
  /-- `00EE` -/
  | ret
  /-- `1nnn` -/
  | jump (nnn : Addr)
  /-- `2nnn` -/
  | call (nnn : Addr)
  /-- `3xnn` -/
  | skipEqConst (x : Nibble) (nn : Byte)
  /-- `4xnn` -/
  | skipNeqConst (x : Nibble) (nn : Byte)
  /-- `5xy0` -/
  | skipEqReg (x y : Nibble)
  /-- `6xnn` -/
  | setConst (x : Nibble) (nn : Byte)
  /-- `7xnn` -/
  | addConst (x : Nibble) (nn : Byte)
  /-- `8xy0` -/
  | setReg (x y : Nibble)
  /-- `8xy1` -/
  | or (x y : Nibble)
  /-- `8xy2` -/
  | and (x y : Nibble)
  /-- `8xy3` -/
  | xor (x y : Nibble)
  /-- `8xy4` -/
  | add (x y : Nibble)
  /-- `8xy5` -/
  | sub (x y : Nibble)
  /-- `8xy6` -/
  | shiftRight (x y : Nibble)
  /-- `8xy7` -/
  | subReverse (x y : Nibble)
  /-- `8xyE` -/
  | shiftLeft (x y : Nibble)
  /-- `9xy0` -/
  | skipNeqReg (x y : Nibble)
  /-- `Annn` -/
  | setIndex (nnn : Addr)
  /-- `Bnnn` -/
  | jumpPlusV0 (nnn : Addr)
  /-- `Cxnn` -/
  | randMask (x : Nibble) (nn : Byte)
  /-- `Dxyn` -/
  | draw (x y n : Nibble)
  /-- `Ex9E` -/
  | skipKeyPressed (x : Nibble)
  /-- `ExA1` -/
  | skipKeyNotPressed (x : Nibble)
  /-- `Fx07` -/
  | getDelay (x : Nibble)
  /-- `Fx0A` -/
  | awaitKey (x : Nibble)
  /-- `Fx15` -/
  | setDelay (x : Nibble)
  /-- `Fx18` -/
  | setSound (x : Nibble)
  /-- `Fx1E` -/
  | addToIndex (x : Nibble)
  /-- `Fx29` -/
  | setIndexFont (x : Nibble)
  /-- `Fx33` -/
  | storeBCD (x : Nibble)
  /-- `Fx55` -/
  | dumpRegs (x : Nibble)
  /-- `Fx65` -/
  | loadRegs (x : Nibble)
  deriving DecidableEq, Repr

/-- The six instruction formats of R92. -/
inductive Format where
  /-- `E`: the whole word is fixed. -/
  | exact
  /-- `A`: `nnn`. -/
  | addr
  /-- `XK`: `x`, `nn`. -/
  | regByte
  /-- `XY`: `x`, `y`. -/
  | twoRegs
  /-- `XYN`: `x`, `y`, `n`. -/
  | twoRegsNibble
  /-- `XF`: `x`. -/
  | regOnly
  deriving DecidableEq, Repr

/-- An operand as assembly writes it (R103): a register `V0` to `VF`, a constant, or a label, which R104
allows where `nnn` is expected. The numbers are unbounded: `WellFormed.lean` says which are in range. -/
inductive Operand where
  | reg (index : Nat)
  | const (value : Nat)
  | label (name : String)
  deriving DecidableEq, Repr

/-- One instruction line of assembly (R103): the mnemonic and its operands in the order of the fields. -/
structure AsmLine where
  mnemonic : String
  operands : List Operand
  deriving DecidableEq, Repr

/-- The assembly line of an instruction (R103). -/
def Instr.line : Instr → AsmLine
  | .clearScreen => ⟨"ClearScreen", []⟩
  | .ret => ⟨"Return", []⟩
  | .jump nnn => ⟨"Jump", [.const nnn.toNat]⟩
  | .call nnn => ⟨"Call", [.const nnn.toNat]⟩
  | .skipEqConst x nn => ⟨"SkipEqConst", [.reg x.toNat, .const nn.toNat]⟩
  | .skipNeqConst x nn => ⟨"SkipNeqConst", [.reg x.toNat, .const nn.toNat]⟩
  | .skipEqReg x y => ⟨"SkipEqReg", [.reg x.toNat, .reg y.toNat]⟩
  | .setConst x nn => ⟨"SetConst", [.reg x.toNat, .const nn.toNat]⟩
  | .addConst x nn => ⟨"AddConst", [.reg x.toNat, .const nn.toNat]⟩
  | .setReg x y => ⟨"SetReg", [.reg x.toNat, .reg y.toNat]⟩
  | .or x y => ⟨"Or", [.reg x.toNat, .reg y.toNat]⟩
  | .and x y => ⟨"And", [.reg x.toNat, .reg y.toNat]⟩
  | .xor x y => ⟨"Xor", [.reg x.toNat, .reg y.toNat]⟩
  | .add x y => ⟨"Add", [.reg x.toNat, .reg y.toNat]⟩
  | .sub x y => ⟨"Sub", [.reg x.toNat, .reg y.toNat]⟩
  | .shiftRight x y => ⟨"ShiftRight", [.reg x.toNat, .reg y.toNat]⟩
  | .subReverse x y => ⟨"SubReverse", [.reg x.toNat, .reg y.toNat]⟩
  | .shiftLeft x y => ⟨"ShiftLeft", [.reg x.toNat, .reg y.toNat]⟩
  | .skipNeqReg x y => ⟨"SkipNeqReg", [.reg x.toNat, .reg y.toNat]⟩
  | .setIndex nnn => ⟨"SetIndex", [.const nnn.toNat]⟩
  | .jumpPlusV0 nnn => ⟨"JumpPlusV0", [.const nnn.toNat]⟩
  | .randMask x nn => ⟨"RandMask", [.reg x.toNat, .const nn.toNat]⟩
  | .draw x y n => ⟨"Draw", [.reg x.toNat, .reg y.toNat, .const n.toNat]⟩
  | .skipKeyPressed x => ⟨"SkipKeyPressed", [.reg x.toNat]⟩
  | .skipKeyNotPressed x => ⟨"SkipKeyNotPressed", [.reg x.toNat]⟩
  | .getDelay x => ⟨"GetDelay", [.reg x.toNat]⟩
  | .awaitKey x => ⟨"AwaitKey", [.reg x.toNat]⟩
  | .setDelay x => ⟨"SetDelay", [.reg x.toNat]⟩
  | .setSound x => ⟨"SetSound", [.reg x.toNat]⟩
  | .addToIndex x => ⟨"AddToIndex", [.reg x.toNat]⟩
  | .setIndexFont x => ⟨"SetIndexFont", [.reg x.toNat]⟩
  | .storeBCD x => ⟨"StoreBCD", [.reg x.toNat]⟩
  | .dumpRegs x => ⟨"DumpRegs", [.reg x.toNat]⟩
  | .loadRegs x => ⟨"LoadRegs", [.reg x.toNat]⟩

end Sys2Proof
end

