-- ==== Sys2Proof/WellFormed.lean ====
section
/-! DEFINITION. Which assembly lines and instructions are well formed: the operand kinds of a format (R92,
R103) and the operand ranges (R104). -/

namespace Sys2Proof

/-- One row of the opcode map: "a word W matches the row when `W & mask = match`" (`30_encoding.md`). -/
structure OpcodeRow where
  mnemonic : String
  format : Format
  fixed : Word
  mask : Word
  deriving DecidableEq, Repr

/-- The opcode map of R96, row by row. -/
def opcodeTable : List OpcodeRow := [
  ⟨"ClearScreen", .exact, 0x00E0, 0xFFFF⟩,
  ⟨"Return", .exact, 0x00EE, 0xFFFF⟩,
  ⟨"Jump", .addr, 0x1000, 0xF000⟩,
  ⟨"Call", .addr, 0x2000, 0xF000⟩,
  ⟨"SkipEqConst", .regByte, 0x3000, 0xF000⟩,
  ⟨"SkipNeqConst", .regByte, 0x4000, 0xF000⟩,
  ⟨"SkipEqReg", .twoRegs, 0x5000, 0xF00F⟩,
  ⟨"SetConst", .regByte, 0x6000, 0xF000⟩,
  ⟨"AddConst", .regByte, 0x7000, 0xF000⟩,
  ⟨"SetReg", .twoRegs, 0x8000, 0xF00F⟩,
  ⟨"Or", .twoRegs, 0x8001, 0xF00F⟩,
  ⟨"And", .twoRegs, 0x8002, 0xF00F⟩,
  ⟨"Xor", .twoRegs, 0x8003, 0xF00F⟩,
  ⟨"Add", .twoRegs, 0x8004, 0xF00F⟩,
  ⟨"Sub", .twoRegs, 0x8005, 0xF00F⟩,
  ⟨"ShiftRight", .twoRegs, 0x8006, 0xF00F⟩,
  ⟨"SubReverse", .twoRegs, 0x8007, 0xF00F⟩,
  ⟨"ShiftLeft", .twoRegs, 0x800E, 0xF00F⟩,
  ⟨"SkipNeqReg", .twoRegs, 0x9000, 0xF00F⟩,
  ⟨"SetIndex", .addr, 0xA000, 0xF000⟩,
  ⟨"JumpPlusV0", .addr, 0xB000, 0xF000⟩,
  ⟨"RandMask", .regByte, 0xC000, 0xF000⟩,
  ⟨"Draw", .twoRegsNibble, 0xD000, 0xF000⟩,
  ⟨"SkipKeyPressed", .regOnly, 0xE09E, 0xF0FF⟩,
  ⟨"SkipKeyNotPressed", .regOnly, 0xE0A1, 0xF0FF⟩,
  ⟨"GetDelay", .regOnly, 0xF007, 0xF0FF⟩,
  ⟨"AwaitKey", .regOnly, 0xF00A, 0xF0FF⟩,
  ⟨"SetDelay", .regOnly, 0xF015, 0xF0FF⟩,
  ⟨"SetSound", .regOnly, 0xF018, 0xF0FF⟩,
  ⟨"AddToIndex", .regOnly, 0xF01E, 0xF0FF⟩,
  ⟨"SetIndexFont", .regOnly, 0xF029, 0xF0FF⟩,
  ⟨"StoreBCD", .regOnly, 0xF033, 0xF0FF⟩,
  ⟨"DumpRegs", .regOnly, 0xF055, 0xF0FF⟩,
  ⟨"LoadRegs", .regOnly, 0xF065, 0xF0FF⟩]

/-- The table's row of a mnemonic, if it has one. -/
def findRow : List OpcodeRow → String → Option OpcodeRow
  | [], _ => none
  | r :: rows, m => if r.mnemonic = m then some r else findRow rows m

/-- A register operand `V0` to `VF` (R104). -/
def Operand.isReg : Operand → Bool
  | .reg k => decide (k < 16)
  | _ => false

/-- A constant operand of a field of `width` bits (R104: "An assembler refuses an operand outside its
range; it never truncates"). -/
def Operand.isConst (width : Nat) : Operand → Bool
  | .const v => decide (v < 2 ^ width)
  | _ => false

/-- The operands a format takes, each in its range (R92, R103, R104). -/
def Format.accepts : Format → List Operand → Bool
  | .exact, [] => true
  | .addr, [a] => a.isConst 12
  | .regByte, [a, b] => a.isReg && b.isConst 8
  | .twoRegs, [a, b] => a.isReg && b.isReg
  | .twoRegsNibble, [a, b, c] => a.isReg && b.isReg && c.isConst 4
  | .regOnly, [a] => a.isReg
  | _, _ => false

/-- A line is well formed when the table has its mnemonic and its operands fit the row's format. -/
def AsmLine.wellFormed (l : AsmLine) : Bool :=
  match findRow opcodeTable l.mnemonic with
  | some r => r.format.accepts l.operands
  | none => false

/-- An instruction is well formed when its line is. The field widths of `Instr` make every instruction
so (`Sys2Proof.Laws.EncodesItsRow`); an ill-formed operand exists only in a line. -/
def Instr.wellFormed (i : Instr) : Bool := i.line.wellFormed

end Sys2Proof
end

