-- ==== Sys2Proof/Decode.lean ====
section
/-! DEFINITION. The opcode decoder (`30_encoding.md` R91, R94, R95) and the encoder (R92, R106). -/

namespace Sys2Proof

/-- Why bytes are no instruction. -/
inductive DecodeError where
  /-- No row of R96 matches the word (R100). -/
  | unknownOpcode (w : Word)
  /-- Fewer than two bytes were given; a fetch always gives two. -/
  | tooShort
  deriving DecidableEq, Repr

/-- `n1` = W[15:12] (R8). -/
def fieldN1 (w : Word) : Nibble := w.extractLsb' 12 4

/-- `x` = W[11:8] (R8). -/
def fieldX (w : Word) : Nibble := w.extractLsb' 8 4

/-- `y` = W[7:4] (R8). -/
def fieldY (w : Word) : Nibble := w.extractLsb' 4 4

/-- `n` = W[3:0] (R8). -/
def fieldN (w : Word) : Nibble := w.extractLsb' 0 4

/-- `nn` = W[7:0] (R8). -/
def fieldNN (w : Word) : Byte := w.extractLsb' 0 8

/-- `nnn` = W[11:0] (R8). -/
def fieldNNN (w : Word) : Addr := w.extractLsb' 0 12

/-- Group `n1 = 0`: two exact words (R97). -/
def decodeGroup0 (w : Word) : Except DecodeError Instr :=
  if w = 0x00E0#16 then .ok .clearScreen
  else if w = 0x00EE#16 then .ok .ret
  else .error (.unknownOpcode w)

/-- Group `n1 = 8`: the sub-opcode is `n` (R98). -/
def decodeGroup8 (w : Word) : Except DecodeError Instr :=
  match fieldN w with
  | 0x0#4 => .ok (.setReg (fieldX w) (fieldY w))
  | 0x1#4 => .ok (.or (fieldX w) (fieldY w))
  | 0x2#4 => .ok (.and (fieldX w) (fieldY w))
  | 0x3#4 => .ok (.xor (fieldX w) (fieldY w))
  | 0x4#4 => .ok (.add (fieldX w) (fieldY w))
  | 0x5#4 => .ok (.sub (fieldX w) (fieldY w))
  | 0x6#4 => .ok (.shiftRight (fieldX w) (fieldY w))
  | 0x7#4 => .ok (.subReverse (fieldX w) (fieldY w))
  | 0xE#4 => .ok (.shiftLeft (fieldX w) (fieldY w))
  | _ => .error (.unknownOpcode w)

/-- Groups `n1 = 5` and `n1 = 9`: `n` must be 0 (R98). -/
def decodeSkipReg (make : Nibble → Nibble → Instr) (w : Word) : Except DecodeError Instr :=
  if fieldN w = 0x0#4 then .ok (make (fieldX w) (fieldY w)) else .error (.unknownOpcode w)

/-- Group `n1 = E`: the function code is `nn` (R99). -/
def decodeGroupE (w : Word) : Except DecodeError Instr :=
  match fieldNN w with
  | 0x9E#8 => .ok (.skipKeyPressed (fieldX w))
  | 0xA1#8 => .ok (.skipKeyNotPressed (fieldX w))
  | _ => .error (.unknownOpcode w)

/-- Group `n1 = F`: the function code is `nn` (R99). -/
def decodeGroupF (w : Word) : Except DecodeError Instr :=
  match fieldNN w with
  | 0x07#8 => .ok (.getDelay (fieldX w))
  | 0x0A#8 => .ok (.awaitKey (fieldX w))
  | 0x15#8 => .ok (.setDelay (fieldX w))
  | 0x18#8 => .ok (.setSound (fieldX w))
  | 0x1E#8 => .ok (.addToIndex (fieldX w))
  | 0x29#8 => .ok (.setIndexFont (fieldX w))
  | 0x33#8 => .ok (.storeBCD (fieldX w))
  | 0x55#8 => .ok (.dumpRegs (fieldX w))
  | 0x65#8 => .ok (.loadRegs (fieldX w))
  | _ => .error (.unknownOpcode w)

/-- The decoder, as the decision tree of R94: a pure function, total on all 65536 words (R95). -/
def decodeWord (w : Word) : Except DecodeError Instr :=
  match fieldN1 w with
  | 0x0#4 => decodeGroup0 w
  | 0x1#4 => .ok (.jump (fieldNNN w))
  | 0x2#4 => .ok (.call (fieldNNN w))
  | 0x3#4 => .ok (.skipEqConst (fieldX w) (fieldNN w))
  | 0x4#4 => .ok (.skipNeqConst (fieldX w) (fieldNN w))
  | 0x5#4 => decodeSkipReg .skipEqReg w
  | 0x6#4 => .ok (.setConst (fieldX w) (fieldNN w))
  | 0x7#4 => .ok (.addConst (fieldX w) (fieldNN w))
  | 0x8#4 => decodeGroup8 w
  | 0x9#4 => decodeSkipReg .skipNeqReg w
  | 0xA#4 => .ok (.setIndex (fieldNNN w))
  | 0xB#4 => .ok (.jumpPlusV0 (fieldNNN w))
  | 0xC#4 => .ok (.randMask (fieldX w) (fieldNN w))
  | 0xD#4 => .ok (.draw (fieldX w) (fieldY w) (fieldN w))
  | 0xE#4 => decodeGroupE w
  | 0xF#4 => decodeGroupF w
  | _ => .error (.unknownOpcode w)

/-- The big-endian combine of the two bytes of a word (`20_memory.md` R66, R68): the byte at the lower
address is W[15:8]. -/
def wordOfBytes (high low : Byte) : Word := high ++ low

/-- The byte of a word that lies at the lower address (R68). -/
def highByte (w : Word) : Byte := w.extractLsb' 8 8

/-- The byte of a word that lies at the higher address (R68). -/
def lowByte (w : Word) : Byte := w.extractLsb' 0 8

/-- The decoder over bytes in memory order: the first two are the word, the rest is handed back (R90). -/
def decodeBytes : List Byte → Except DecodeError (Instr × List Byte)
  | high :: low :: rest =>
    match decodeWord (wordOfBytes high low) with
    | .ok i => .ok (i, rest)
    | .error e => .error e
  | _ => .error .tooShort

/-- Format `A`: `n1`, then `nnn` (R92). -/
def wordA (n1 : Nibble) (nnn : Addr) : Word := n1 ++ nnn

/-- Formats `XK` and `XF`: `n1`, `x`, then `nn` or the function code (R92). -/
def wordXK (n1 x : Nibble) (nn : Byte) : Word := n1 ++ x ++ nn

/-- Formats `XYN` and `XY`: `n1`, `x`, `y`, then `n` or the sub-opcode (R92). -/
def wordXYN (n1 x y n : Nibble) : Word := n1 ++ x ++ y ++ n

/-- The word of an instruction, from the formats of R92 and the opcode map of R96. -/
def encode : Instr → Word
  | .clearScreen => 0x00E0#16
  | .ret => 0x00EE#16
  | .jump nnn => wordA 0x1 nnn
  | .call nnn => wordA 0x2 nnn
  | .skipEqConst x nn => wordXK 0x3 x nn
  | .skipNeqConst x nn => wordXK 0x4 x nn
  | .skipEqReg x y => wordXYN 0x5 x y 0x0
  | .setConst x nn => wordXK 0x6 x nn
  | .addConst x nn => wordXK 0x7 x nn
  | .setReg x y => wordXYN 0x8 x y 0x0
  | .or x y => wordXYN 0x8 x y 0x1
  | .and x y => wordXYN 0x8 x y 0x2
  | .xor x y => wordXYN 0x8 x y 0x3
  | .add x y => wordXYN 0x8 x y 0x4
  | .sub x y => wordXYN 0x8 x y 0x5
  | .shiftRight x y => wordXYN 0x8 x y 0x6
  | .subReverse x y => wordXYN 0x8 x y 0x7
  | .shiftLeft x y => wordXYN 0x8 x y 0xE
  | .skipNeqReg x y => wordXYN 0x9 x y 0x0
  | .setIndex nnn => wordA 0xA nnn
  | .jumpPlusV0 nnn => wordA 0xB nnn
  | .randMask x nn => wordXK 0xC x nn
  | .draw x y n => wordXYN 0xD x y n
  | .skipKeyPressed x => wordXK 0xE x 0x9E
  | .skipKeyNotPressed x => wordXK 0xE x 0xA1
  | .getDelay x => wordXK 0xF x 0x07
  | .awaitKey x => wordXK 0xF x 0x0A
  | .setDelay x => wordXK 0xF x 0x15
  | .setSound x => wordXK 0xF x 0x18
  | .addToIndex x => wordXK 0xF x 0x1E
  | .setIndexFont x => wordXK 0xF x 0x29
  | .storeBCD x => wordXK 0xF x 0x33
  | .dumpRegs x => wordXK 0xF x 0x55
  | .loadRegs x => wordXK 0xF x 0x65

/-- The bytes of a word in memory order (R68). -/
def bytesOfWord (w : Word) : List Byte := [highByte w, lowByte w]

/-- The instruction the decoder reads from the opcode table's numbering of a row's bits: `w` is the
16-bit word itself (bit 0 least significant), laid out big-endian. Bits from `nbits` up are 0. -/
def decodeTableWord (nbits w : Nat) : Option Instr :=
  match decodeBytes (bytesOfWord (BitVec.ofNat 16 (w % 2 ^ nbits))) with
  | .ok (i, _) => some i
  | .error _ => none

end Sys2Proof
end

