-- ==== Sys2Proof/Config.lean ====
section
/-! DEFINITION. The parameters of the hardware (`00_scope.md` R5) and the one free value. -/

namespace Sys2Proof

/-- `MEM_SIZE`: bytes of main memory. -/
def Config.memSize : Nat := 4096

/-- `ROM_BASE`: the load address of the ROM and the reset value of `pc`. -/
def Config.romBase : Nat := 512

/-- `ROM_MAX`: the largest ROM, from `ROM_BASE` to the end of memory (`70_reset_and_hazards.md` R253). -/
def Config.romMax : Nat := 3584

/-- `STACK_DEPTH`: entries of the call stack. An open parameter of the spec (decision D1); the model
takes the spec's default. DESIGN CHOICE, unsafe (log 1). -/
def Config.stackDepth : Nat := 16

/-- `FB_W`: columns of the framebuffer. -/
def Config.fbWidth : Nat := 64

/-- `FB_H`: rows of the framebuffer. -/
def Config.fbHeight : Nat := 32

/-- The random byte of `Cxnn` (`43_register_alu.md` R173): the value of the `k`-th draw. It has no body,
so nothing is known of any draw: a statement holds for every generator. Safe (log 4). -/
opaque Config.randomByte : Nat → Byte

end Sys2Proof
end

