-- ==== Sys2Proof/Machine/Font.lean ====
section
/-! DEFINITION. The font and its address (`44_index_memory.md` R183), parameters of the hardware whose
defaults the model takes (decision D3, log 2). -/

namespace Sys2Proof.Machine

/-- `FONT_BASE`: the address of glyph 0. DESIGN CHOICE: the default of the open parameter; unsafe (log 2). -/
def fontBase : Nat := 0x050

/-- `FONT`: rows 0 to 4 of the glyphs 0 to F, the table of R183. DESIGN CHOICE: the default of the open
parameter; unsafe (log 2). -/
def font : List Byte :=
  [0xF0, 0x90, 0x90, 0x90, 0xF0] ++
  [0x20, 0x60, 0x20, 0x20, 0x70] ++
  [0xF0, 0x10, 0xF0, 0x80, 0xF0] ++
  [0xF0, 0x10, 0xF0, 0x10, 0xF0] ++
  [0x90, 0x90, 0xF0, 0x10, 0x10] ++
  [0xF0, 0x80, 0xF0, 0x10, 0xF0] ++
  [0xF0, 0x80, 0xF0, 0x90, 0xF0] ++
  [0xF0, 0x10, 0x20, 0x40, 0x40] ++
  [0xF0, 0x90, 0xF0, 0x90, 0xF0] ++
  [0xF0, 0x90, 0xF0, 0x10, 0xF0] ++
  [0xF0, 0x90, 0xF0, 0x90, 0x90] ++
  [0xE0, 0x90, 0xE0, 0x90, 0xE0] ++
  [0xF0, 0x80, 0x80, 0x80, 0xF0] ++
  [0xE0, 0x90, 0x90, 0x90, 0xE0] ++
  [0xF0, 0x80, 0xF0, 0x80, 0xF0] ++
  [0xF0, 0x80, 0xF0, 0x80, 0x80]

/-- Row `r` of glyph `d` lies `5 * d + r` bytes into the font (R182, R183). -/
def glyphAddress (d : Nibble) : Nat := fontBase + 5 * d.toNat

/-- The reset contents of memory before any ROM byte (`10_state.md` R40, `70_reset_and_hazards.md` R254):
the font at `FONT_BASE`, zero elsewhere. What an unlisted address reads as (log 3). -/
def initByte (a : Nat) : Byte :=
  if fontBase ≤ a then font.getD (a - fontBase) 0 else 0

end Sys2Proof.Machine
end

