-- ==== Sys2Proof/Machine/State.lean ====
section
/-! DEFINITION. The machine state as plain data (`10_state.md` R20), the reasons a step can stop, and the
state after reset (R40). -/

namespace Sys2Proof.Machine

/-- The four faults of the hardware (`60_exceptions.md` R210), as the fault latch holds them (R33). A fault
is entered as a next state with the latch set (R216), never as a stop of the model (log 8). -/
inductive FaultKind where
  /-- Decode found no row for the word (R211). -/
  | unknownOpcode (w : Word)
  /-- An access would reach past address 4095; the payload is its lowest address outside memory (R212). -/
  | outOfBounds (a : Word)
  /-- `2nnn` with all entries in use (R213). -/
  | stackOverflow
  /-- `00EE` with an empty stack (R214). -/
  | stackUnderflow
  deriving DecidableEq, Repr

/-- Main memory: the cells that differ from the reset contents, in the canonical form of `Memory.wf`. -/
abbrev Memory := List Host.Cell

/-- What the Render Port hands out (R231): a copy of all 2048 cells, with the width and the height. -/
structure RenderEvent where
  cells : Frame
  width : Nat
  height : Nat
  deriving DecidableEq, Repr

/-- One transition of the machine, by the agent that makes it (`60_exceptions.md` R232,
`10_state.md` R38). -/
inductive Turn where
  /-- Execution Engine: Step (R120). -/
  | engine
  /-- Timer Ticker: Tick (R224). -/
  | tick
  /-- Host: Press(k) (R228); the key number is 4 bits wide (R227). -/
  | press (k : Nibble)
  /-- Host: Release(k) (R229). -/
  | release (k : Nibble)
  /-- Host: Start (R233). -/
  | start
  /-- Host: Stop (R233). -/
  | stop
  /-- Host: Reset(rom) (`70_reset_and_hazards.md` R250). -/
  | reset (rom : List Byte)
  deriving DecidableEq, Repr

/-- Why the model stops with a fault. None of the hardware's own faults is one: they set the latch. -/
inductive Fault where
  /-- The Engine's turn with `run = 0`: Step is not enabled (R120). Raised by `engineStep`. Safe: the
  hardware has no transition there (log 7). -/
  | engineStopped
  /-- The Engine's turn with the fault latch set: Step is not enabled (R120, R216). Raised by
  `engineStep`. Safe: the Engine is stuck until Reset (log 7). -/
  | engineFaulted (f : FaultKind)
  deriving DecidableEq, Repr

/-- Why the model gives no next state without a fault. -/
inductive Refusal where
  /-- An instruction without a meaning. Raised by an arm of `exec` only; no arm raises it now. Safe. -/
  | notModelled (mnemonic : String)
  /-- Reset with a ROM longer than 3584 bytes: "a longer ROM is refused (the machine is not constructed,
  no state results)" (R253). Raised by `takeTurn`. Safe (log 11). -/
  | romTooLong
  deriving DecidableEq, Repr

/-- The machine state: one field per row of R20, then three fields of the model's own. -/
structure State where
  /-- `MEM[0..4095]` (R31). -/
  mem : Memory
  /-- The general registers `V[0..15]`; `VF` is `V[15]` (R21, R22). -/
  v : Vector Byte 16
  /-- The index register `I` (R24). -/
  i : Word
  /-- The program counter (R25). -/
  pc : Word
  /-- The call stack `S`, an array of its own outside main memory (R27). -/
  stack : Vector Word Config.stackDepth
  /-- The number of call-stack entries in use, 0 to `STACK_DEPTH` (R27). -/
  sp : Fin (Config.stackDepth + 1)
  /-- The delay timer `DT` (R28). -/
  dt : Byte
  /-- The sound timer `ST` (R28). -/
  st : Byte
  /-- The framebuffer `FB[0..2047]` (R29). -/
  fb : Frame
  /-- The keypad latch `KEY[0..15]` (R30). -/
  keys : KeySet
  /-- The run latch (R32). -/
  run : Bool
  /-- The fault latch (R33). -/
  fault : Option FaultKind
  /-- The MODEL's own: how many bytes `Cxnn` has drawn; it picks the next free value (R173, log 4). -/
  draws : Nat
  /-- The MODEL's own: the Render events handed out, newest first. No rule reads it (R231, R37, log 5). -/
  renders : List RenderEvent
  /-- The MODEL's own: the transitions still to come, first one next; when it is empty the Engine moves.
  It stands for the schedule the spec leaves open (R37, R232, log 6). -/
  schedule : List Turn
  deriving DecidableEq, Repr

/-- The state right after `Reset` of an empty ROM (R40, R250): `pc` is 512, the machine is stopped, memory
holds the font and zeros (nothing is listed), all else is zero. -/
def State.reset : State where
  mem := []
  v := Vector.replicate 16 0
  i := 0
  pc := 512
  stack := Vector.replicate Config.stackDepth 0
  sp := 0
  dt := 0
  st := 0
  fb := 0
  keys := 0
  run := false
  fault := none
  draws := 0
  renders := []
  schedule := []

end Sys2Proof.Machine
end

