-- ==== Sys2Proof/Machine/Ops.lean ====
section
/-! DEFINITION. The named operations: memory, registers, the program counter, the call stack, and taking a
fault (`20_memory.md`, `40_execution_engine.md`, `60_exceptions.md`). -/

namespace Sys2Proof.Machine

/-- What a transition answers. -/
abbrev Result := Host.Outcome State Fault Refusal

/-! ### Memory -/

/-- `MEM[a]` (R66). -/
def Memory.read : Memory → Nat → Byte
  | [], a => initByte a
  | (k, b) :: m, a => if k = a then b else Memory.read m a

/-- The list with cell `a` holding `b`: kept sorted, and holding no entry equal to the reset contents. -/
def Memory.put : Memory → Nat → Byte → Memory
  | [], a, b => if b = initByte a then [] else [(a, b)]
  | (k, c) :: m, a, b =>
    if k < a then (k, c) :: Memory.put m a b
    else if k = a then if b = initByte a then m else (a, b) :: m
    else if b = initByte a then (k, c) :: m else (a, b) :: (k, c) :: m

/-- `MEM[a] <- b` (R67). Only addresses 0 to 4095 are cells; every instruction has checked its range before
it writes (R65), so the other case is never reached (log 13). -/
def Memory.write (m : Memory) (a : Nat) (b : Byte) : Memory :=
  if a < Config.memSize then Memory.put m a b else m

/-- Bytes written at ascending addresses from `a` (R69). -/
def Memory.writeList : Memory → Nat → List Byte → Memory
  | m, _, [] => m
  | m, a, b :: bs => Memory.writeList (Memory.write m a b) (a + 1) bs

/-- The canonical form from a lower bound on: addresses strictly rising and below 4096, no entry equal to
the reset contents. -/
def Memory.wfFrom : Nat → Memory → Bool
  | _, [] => true
  | lo, (k, b) :: m =>
    decide (lo ≤ k) && decide (k < Config.memSize) && decide (b ≠ initByte k) && Memory.wfFrom (k + 1) m

/-- The canonical form of memory: equal memories are equal lists. -/
def Memory.wf (m : Memory) : Bool := Memory.wfFrom 0 m

/-- `CheckRange(addr, len)` (R65): the OutOfBounds fault of an access past address 4095, with its lowest
address outside memory; no check when `len = 0`. -/
def checkRange (addr len : Nat) : Option FaultKind :=
  if len = 0 ∨ addr + len ≤ Config.memSize then none
  else some (.outOfBounds (BitVec.ofNat 16 (max addr Config.memSize)))

/-! ### Registers -/

/-- `V[k]` (`00_scope.md` R9). -/
def State.reg (s : State) (k : Nibble) : Byte := s.v[k.toNat]'k.isLt

/-- `V[k] <- b`. -/
def State.setReg (s : State) (k : Nibble) (b : Byte) : State := { s with v := s.v.set k.toNat b k.isLt }

/-- `VF <- flag`: the flag is the byte 0 or 1 in `V[15]` (`10_state.md` R34). -/
def State.setVF (s : State) (flag : Bool) : State := s.setReg 0xF (if flag then 1 else 0)

/-- `I <- w`. -/
def State.setI (s : State) (w : Word) : State := { s with i := w }

/-- `pc <- w`. -/
def State.setPc (s : State) (w : Word) : State := { s with pc := w }

/-- `DT <- b`. -/
def State.setDT (s : State) (b : Byte) : State := { s with dt := b }

/-- `ST <- b`. -/
def State.setST (s : State) (b : Byte) : State := { s with st := b }

/-- `FB <- f`. -/
def State.setFB (s : State) (f : Frame) : State := { s with fb := f }

/-- The memory replaced. -/
def State.setMem (s : State) (m : Memory) : State := { s with mem := m }

/-- The register file replaced. -/
def State.setV (s : State) (v : Vector Byte 16) : State := { s with v := v }

/-- The byte at address `a`. -/
def State.read (s : State) (a : Nat) : Byte := s.mem.read a

/-! ### The program counter -/

/-- The default advance, `pc <- pc + 2` (`40_execution_engine.md` R125). -/
def State.advance (s : State) : State := s.setPc (s.pc + 2)

/-- The advance of a conditional skip: `pc + 4` when the condition holds, else `pc + 2` (R124, R125). -/
def State.skipIf (s : State) (c : Bool) : State := s.setPc (if c then s.pc + 4 else s.pc + 2)

/-! ### Faults -/

/-- Fault entry (`60_exceptions.md` R216): the latch is set and no other component changes, so `pc` keeps
the address of the faulting instruction. There is no handler and no return (R216, R218). -/
def State.raise (s : State) (f : FaultKind) : State := { s with fault := some f }

/-- The rest of an instruction after its range check: the check's fault, or what the access does (R65). -/
def afterCheck (s : State) (addr len : Nat) (access : State) : Result :=
  match checkRange addr len with
  | some f => .next (s.raise f)
  | none => .next access

/-! ### The call stack -/

/-- Push a return address (R142): StackOverflow when all entries are in use. -/
def State.push (s : State) (w : Word) : Except FaultKind State :=
  if h : s.sp.val < Config.stackDepth then
    .ok { s with stack := s.stack.set s.sp.val w h, sp := ⟨s.sp.val + 1, Nat.succ_lt_succ h⟩ }
  else .error .stackOverflow

/-- Pop the top entry (R140): StackUnderflow when the stack is empty. The popped entry keeps its bits (R27). -/
def State.pop (s : State) : Except FaultKind (Word × State) :=
  if h : 0 < s.sp.val then
    .ok (s.stack[s.sp.val - 1]'(by have := s.sp.isLt; omega),
      { s with sp := ⟨s.sp.val - 1, by have := s.sp.isLt; omega⟩ })
  else .error .stackUnderflow

/-! ### The Render Port -/

/-- `emit Render(FB)` (R231): a snapshot of the frame as it stands goes out; no other component changes. -/
def State.emitRender (s : State) : State :=
  { s with renders := ⟨s.fb, Config.fbWidth, Config.fbHeight⟩ :: s.renders }

/-! ### Fetch -/

/-- The word at `pc`, big-endian (R66, R68). -/
def State.fetchWord (s : State) : Word := wordOfBytes (s.read s.pc.toNat) (s.read (s.pc.toNat + 1))

/-- Fetch and decode (R121, R122, R217): the bounds of the two bytes first, then the opcode. -/
def State.fetch (s : State) : Except FaultKind Instr :=
  match checkRange s.pc.toNat 2 with
  | some f => .error f
  | none =>
    match decodeWord s.fetchWord with
    | .ok i => .ok i
    | .error _ => .error (.unknownOpcode s.fetchWord)

end Sys2Proof.Machine
end

