-- ==== Sys2Proof/Machine/Agents.lean ====
section
/-! DEFINITION. The transitions of the Timer Ticker and the Host (`60_exceptions.md` sections 5, 6 and 9,
`70_reset_and_hazards.md` section 1). Each is enabled in every state, whatever `run` and `fault` are. -/

namespace Sys2Proof.Machine

/-- One timer, one Tick: down by one, never below 0 (R224). -/
def tickDown (b : Byte) : Byte := if b = 0 then 0 else b - 1

/-- Tick (R224): both timers in one transition; nothing else changes. -/
def State.tick (s : State) : State := { s with dt := tickDown s.dt, st := tickDown s.st }

/-- The one-key set `{k}`. -/
def keyBit (k : Nibble) : KeySet := BitVec.twoPow 16 k.toNat

/-- Press(k) (R228): idempotent. -/
def State.press (s : State) (k : Nibble) : State := { s with keys := s.keys ||| keyBit k }

/-- Release(k) (R229): idempotent. -/
def State.release (s : State) (k : Nibble) : State := { s with keys := s.keys &&& ~~~keyBit k }

/-- Start and Stop (R233): they change the run latch only, and clear no fault (R218). -/
def State.setRun (s : State) (b : Bool) : State := { s with run := b }

/-- Reset(rom) (R250, R252): the whole state becomes the reset state with the ROM copied from 512 up. The
model's own fields stay: the random source is not reset (R173), a snapshot handed out stays handed out
(R231), and the rest of the schedule is still to come. -/
def State.hostReset (s : State) (rom : List Byte) : State :=
  { State.reset with
    mem := State.reset.mem.writeList Config.romBase rom
    draws := s.draws, renders := s.renders, schedule := s.schedule }

end Sys2Proof.Machine
end

