-- ==== Sys2Proof/Machine/Operands.lean ====
section
/-! DEFINITION. The operand forms: immediates (`30_encoding.md` R93), register blocks and their memory images
(`20_memory.md` R69), decimal digits, the key predicate, sprite rows and pixels (`45_display.md` R192). -/

namespace Sys2Proof.Machine

/-- `zext_16(nnn)` (R93): an address field as a 16-bit register holds it. -/
def zextAddr (nnn : Addr) : Word := nnn.zeroExtend 16

/-- `zext_16` of a byte (R93). -/
def zextByte (b : Byte) : Word := b.zeroExtend 16

/-- `I` as the natural number that effective addresses are computed from (`20_memory.md` R64). -/
def State.base (s : State) : Nat := s.i.toNat

/-- How many registers `V[0]` to `V[x]` are, inclusive (`44_index_memory.md` R185). -/
def blockLength (x : Nibble) : Nat := x.toNat + 1

/-- The bytes of `V[0]` to `V[x]`, ascending (R185). -/
def State.block (s : State) (x : Nibble) : List Byte := s.v.toList.take (blockLength x)

/-- The register file after `V[k] <- MEM[base + k]` for the first `count` registers, ascending (R186). -/
def loadBlock (m : Memory) (base : Nat) (v : Vector Byte 16) : Nat → Vector Byte 16
  | 0 => v
  | k + 1 => (loadBlock m base v k).setIfInBounds k (m.read (base + k))

/-- The decimal digits of a byte, most significant first (`44_index_memory.md` R184). -/
def digits (a : Byte) : List Byte := [a / 100, a / 10 % 10, a % 10]

/-- `Pressed(v)` (`46_keypad_timers.md` R200): the whole byte is the key number, and a number above 15 names
no key. -/
def State.pressed (s : State) (v : Byte) : Bool := decide (v.toNat ≤ 15) && s.keys.getLsbD v.toNat

/-- Column `c` of a sprite row is bit `7 - c`: the most significant bit is leftmost (R192, decision D11).
PRESUMED by the spec (its K3); unsafe (log 14). -/
def spriteBit (row : Byte) (c : Nat) : Bool := row.getLsbD (7 - c)

/-- The framebuffer cell of sprite row `r`, column `c` with the origin `(ox, oy)`: each coordinate is
reduced for itself, so a sprite wraps around the edges (R192). -/
def pixelIndex (ox oy r c : Nat) : Nat :=
  (oy + r) % Config.fbHeight * Config.fbWidth + (ox + c) % Config.fbWidth

/-- The frame while a sprite is drawn, and the collision flag so far. -/
structure Drawing where
  frame : Frame
  hit : Bool
  deriving DecidableEq, Repr

/-- One set sprite bit (R191): the cell is inverted; a cell that was 1 is a collision. -/
def Drawing.flip (d : Drawing) (cell : Nat) : Drawing :=
  ⟨d.frame ^^^ BitVec.twoPow 2048 cell, d.hit || d.frame.getLsbD cell⟩

/-- One sprite row (R191): the columns 0 to 7 in order; a zero bit leaves its cell. -/
def Drawing.row (d : Drawing) (ox oy r : Nat) (b : Byte) : Drawing :=
  (List.range 8).foldl (fun d c => if spriteBit b c then d.flip (pixelIndex ox oy r c) else d) d

/-- The rows `r`, `r + 1`, … of a sprite, top row first (R191). -/
def Drawing.rows (ox oy : Nat) : Nat → List Byte → Drawing → Drawing
  | _, [], d => d
  | r, b :: bs, d => Drawing.rows ox oy (r + 1) bs (d.row ox oy r b)

/-- The `n` bytes from `I` up: row `r` of the sprite is `MEM[I + r]` (R192). -/
def State.spriteRows (s : State) (n : Nat) : List Byte :=
  (List.range n).map fun r => s.read (s.base + r)

/-- The sprite of `n` rows at `I` drawn on the frame at column `ox`, row `oy` (R191). -/
def State.drawSprite (s : State) (ox oy : Byte) (n : Nat) : Drawing :=
  Drawing.rows ox.toNat oy.toNat 0 (s.spriteRows n) ⟨s.fb, false⟩

end Sys2Proof.Machine
end

