-- ==== Sys2Proof/Machine/ControlFlow.lean ====
section
/-! DEFINITION. Control transfer (`41_control_flow.md`): Return, Jump, Call, JumpPlusV0. -/

namespace Sys2Proof.Machine

/-- `Return` (R140): the popped entry is the next `pc`; no 2 is added. -/
def execReturn (s : State) : Result :=
  match s.pop with
  | .error f => .next (s.raise f)
  | .ok (w, t) => .next (t.setPc w)

/-- `Jump nnn` (R141). -/
def execJump (nnn : Addr) (s : State) : Result := .next (s.setPc (zextAddr nnn))

/-- `Call nnn` (R142): the address of the next instruction is pushed. -/
def execCall (nnn : Addr) (s : State) : Result :=
  match s.push (s.pc + 2) with
  | .error f => .next (s.raise f)
  | .ok t => .next (t.setPc (zextAddr nnn))

/-- `JumpPlusV0 nnn` (R143): the sum is not reduced to 12 bits. -/
def execJumpPlusV0 (nnn : Addr) (s : State) : Result :=
  .next (s.setPc (zextAddr nnn + zextByte (s.reg 0)))

end Sys2Proof.Machine
end

