-- ==== Sys2Proof/Machine/Display.lean ====
section
/-! DEFINITION. Display instructions (`45_display.md`). Both hand the frame to the Render Port last. -/

namespace Sys2Proof.Machine

/-- `ClearScreen` (R190): every cell 0; the Render event goes out even if the frame was clear. -/
def execClearScreen (s : State) : Result := .next (s.setFB 0).emitRender.advance

/-- `Draw Vx, Vy, n` (R191): the coordinates are read before `VF` is written; the check covers all `n` rows
and precedes every write; with `n = 0` nothing is checked or drawn, `VF` becomes 0 and the event goes out. -/
def execDraw (x y n : Nibble) (s : State) : Result :=
  let d := s.drawSprite (s.reg x) (s.reg y) n.toNat
  afterCheck s s.base n.toNat ((s.setFB d.frame).setVF d.hit).emitRender.advance

end Sys2Proof.Machine
end

