-- ==== Sys2Proof/Machine/Flags.lean ====
section
/-! DEFINITION. The flag computations (`10_state.md` R34, `43_register_alu.md` R172): each is computed from
the operand values before the instruction (R171). -/

namespace Sys2Proof.Machine

/-- The carry of an 8-bit addition: the sum exceeds 255 (R172). -/
def carry (a b : Byte) : Bool := decide (255 < a.toNat + b.toNat)

/-- No borrow in `a - b`: `a >= b`, equality included (R172). -/
def noBorrow (a b : Byte) : Bool := decide (b.toNat ≤ a.toNat)

/-- The bit a right shift moves out: bit 0 (R168). -/
def lowBit (b : Byte) : Bool := b.getLsbD 0

/-- The bit a left shift moves out: bit 7 (R170). -/
def highBit (b : Byte) : Bool := b.getLsbD 7

/-- The 12-bit overflow of the index register: the unwrapped sum exceeds 0xFFF (`44_index_memory.md` R181). -/
def indexOverflow (i : Word) (a : Byte) : Bool := decide (0xFFF < i.toNat + a.toNat)

end Sys2Proof.Machine
end

