-- ==== Sys2Proof/Machine/IndexMemory.lean ====
section
/-! DEFINITION. Index register and memory instructions (`44_index_memory.md`). The three that access memory
check the whole access first (`20_memory.md` R65) and leave `I` as it is. -/

namespace Sys2Proof.Machine

/-- `SetIndex nnn` (R180). -/
def execSetIndex (nnn : Addr) (s : State) : Result := .next (s.setI (zextAddr nnn)).advance

/-- `AddToIndex Vx` (R181): `I` wraps modulo 65536 only; `VF` is computed from the unwrapped sum. -/
def execAddToIndex (x : Nibble) (s : State) : Result :=
  .next (((s.setI (s.i + zextByte (s.reg x))).setVF (indexOverflow s.i (s.reg x))).advance)

/-- `SetIndexFont Vx` (R182): the low 4 bits of `Vx` select the glyph. -/
def execSetIndexFont (x : Nibble) (s : State) : Result :=
  .next (s.setI (BitVec.ofNat 16 (glyphAddress ((s.reg x).extractLsb' 0 4)))).advance

/-- `StoreBCD Vx` (R184). -/
def execStoreBCD (x : Nibble) (s : State) : Result :=
  afterCheck s s.base 3 (s.setMem (s.mem.writeList s.base (digits (s.reg x)))).advance

/-- `DumpRegs Vx` (R185). -/
def execDumpRegs (x : Nibble) (s : State) : Result :=
  afterCheck s s.base (blockLength x) (s.setMem (s.mem.writeList s.base (s.block x))).advance

/-- `LoadRegs Vx` (R186). -/
def execLoadRegs (x : Nibble) (s : State) : Result :=
  afterCheck s s.base (blockLength x) (s.setV (loadBlock s.mem s.base s.v (blockLength x))).advance

end Sys2Proof.Machine
end

