-- ==== Sys2Proof/Machine/KeypadTimers.lean ====
section
/-! DEFINITION. Keypad and timer instructions (`46_keypad_timers.md`). None faults, none writes `VF` as a side
effect. -/

namespace Sys2Proof.Machine

/-- `SkipKeyPressed Vx` (R201). -/
def execSkipKeyPressed (x : Nibble) (s : State) : Result := .next (s.skipIf (s.pressed (s.reg x)))

/-- `SkipKeyNotPressed Vx` (R202). -/
def execSkipKeyNotPressed (x : Nibble) (s : State) : Result := .next (s.skipIf (!s.pressed (s.reg x)))

/-- `AwaitKey Vx` (R203): a spin-wait; the state is unchanged until the key is pressed, and nothing is
stored. -/
def execAwaitKey (x : Nibble) (s : State) : Result :=
  .next (if s.pressed (s.reg x) then s.advance else s)

/-- `GetDelay Vx` (R204). -/
def execGetDelay (x : Nibble) (s : State) : Result := .next (s.setReg x s.dt).advance

/-- `SetDelay Vx` (R205). -/
def execSetDelay (x : Nibble) (s : State) : Result := .next (s.setDT (s.reg x)).advance

/-- `SetSound Vx` (R206). -/
def execSetSound (x : Nibble) (s : State) : Result := .next (s.setST (s.reg x)).advance

end Sys2Proof.Machine
end

