-- ==== Sys2Proof/Machine/RegisterAlu.lean ====
section
/-! DEFINITION. Register and arithmetic instructions (`43_register_alu.md`). All are sequential; none faults. -/

namespace Sys2Proof.Machine

/-- Write the result to `V[x]` and advance (R160 to R165). -/
def State.result (s : State) (x : Nibble) (b : Byte) : State := (s.setReg x b).advance

/-- Write the result to `V[x]`, then the flag to `VF`, and advance: with `x = 15` the flag stands
(R171, decision D7). -/
def State.resultFlag (s : State) (x : Nibble) (b : Byte) (flag : Bool) : State :=
  ((s.setReg x b).setVF flag).advance

/-- `SetConst Vx, nn` (R160). -/
def execSetConst (x : Nibble) (nn : Byte) (s : State) : Result := .next (s.result x nn)

/-- `AddConst Vx, nn` (R161): wraps modulo 256, writes no flag. -/
def execAddConst (x : Nibble) (nn : Byte) (s : State) : Result := .next (s.result x (s.reg x + nn))

/-- `SetReg Vx, Vy` (R162). -/
def execSetReg (x y : Nibble) (s : State) : Result := .next (s.result x (s.reg y))

/-- `Or Vx, Vy` (R163). -/
def execOr (x y : Nibble) (s : State) : Result := .next (s.result x (s.reg x ||| s.reg y))

/-- `And Vx, Vy` (R164). -/
def execAnd (x y : Nibble) (s : State) : Result := .next (s.result x (s.reg x &&& s.reg y))

/-- `Xor Vx, Vy` (R165). -/
def execXor (x y : Nibble) (s : State) : Result := .next (s.result x (s.reg x ^^^ s.reg y))

/-- `Add Vx, Vy` (R166): `VF` is the carry. -/
def execAdd (x y : Nibble) (s : State) : Result :=
  .next (s.resultFlag x (s.reg x + s.reg y) (carry (s.reg x) (s.reg y)))

/-- `Sub Vx, Vy` (R167): `VF` is 1 when `Vx >= Vy`. -/
def execSub (x y : Nibble) (s : State) : Result :=
  .next (s.resultFlag x (s.reg x - s.reg y) (noBorrow (s.reg x) (s.reg y)))

/-- `ShiftRight Vx, Vy` (R168): `Vy` is shifted, the old `Vx` is no operand; `VF` is the old bit 0. -/
def execShiftRight (x y : Nibble) (s : State) : Result :=
  .next (s.resultFlag x (s.reg y >>> 1) (lowBit (s.reg y)))

/-- `SubReverse Vx, Vy` (R169): `VF` is 1 when `Vy >= Vx`. -/
def execSubReverse (x y : Nibble) (s : State) : Result :=
  .next (s.resultFlag x (s.reg y - s.reg x) (noBorrow (s.reg y) (s.reg x)))

/-- `ShiftLeft Vx, Vy` (R170): `Vy` is shifted, the old `Vx` is no operand; `VF` is the old bit 7. -/
def execShiftLeft (x y : Nibble) (s : State) : Result :=
  .next (s.resultFlag x (s.reg y <<< 1) (highBit (s.reg y)))

/-- `draw8()` (R173): the byte this execution draws, a free value (log 4). -/
def State.drawByte (s : State) : Byte := Config.randomByte s.draws

/-- The draw is used up: the next execution draws a new one (R173). -/
def State.nextDraw (s : State) : State := { s with draws := s.draws + 1 }

/-- `RandMask Vx, nn` (R173). -/
def execRandMask (x : Nibble) (nn : Byte) (s : State) : Result :=
  .next (s.nextDraw.result x (s.drawByte &&& nn))

end Sys2Proof.Machine
end

