-- ==== Sys2Proof/Machine/Skips.lean ====
section
/-! DEFINITION. Conditional skips on registers (`42_skips.md`). -/

namespace Sys2Proof.Machine

/-- `SkipEqConst Vx, nn` (R150). -/
def execSkipEqConst (x : Nibble) (nn : Byte) (s : State) : Result := .next (s.skipIf (s.reg x == nn))

/-- `SkipNeqConst Vx, nn` (R151). -/
def execSkipNeqConst (x : Nibble) (nn : Byte) (s : State) : Result := .next (s.skipIf (s.reg x != nn))

/-- `SkipEqReg Vx, Vy` (R152). -/
def execSkipEqReg (x y : Nibble) (s : State) : Result := .next (s.skipIf (s.reg x == s.reg y))

/-- `SkipNeqReg Vx, Vy` (R153). -/
def execSkipNeqReg (x y : Nibble) (s : State) : Result := .next (s.skipIf (s.reg x != s.reg y))

end Sys2Proof.Machine
end

