-- ==== Sys2Proof/Machine/Engine.lean ====
section
/-! DEFINITION. The Step of the Execution Engine (`40_execution_engine.md` R120, R131) and one turn of any
agent (`60_exceptions.md` R232). -/

namespace Sys2Proof.Machine

/-- Why the Engine has no transition: Step is enabled exactly when `run = 1` and `fault = None` (R120). -/
def State.blocked (s : State) : Option Fault :=
  match s.fault with
  | some f => some (.engineFaulted f)
  | none => if s.run then none else some .engineStopped

/-- Step (R131): fetch, decode, execute; a fault found before the instruction is entered here, one the
instruction finds is entered by its meaning (R127, R216). -/
def engineStep (s : State) : Result :=
  match s.blocked with
  | some stop => .fault stop
  | none =>
    match s.fetch with
    | .error f => .next (s.raise f)
    | .ok i => exec i s

/-- One transition of the agent whose turn it is (R232). -/
def takeTurn (t : Turn) (s : State) : Result :=
  match t with
  | .engine => engineStep s
  | .tick => .next s.tick
  | .press k => .next (s.press k)
  | .release k => .next (s.release k)
  | .start => .next (s.setRun true)
  | .stop => .next (s.setRun false)
  | .reset rom => if rom.length ≤ Config.romMax then .next (s.hostReset rom) else .refused .romTooLong

/-- The next transition: the first of the schedule, which it uses up, or the Engine's when the schedule
is empty (log 6). -/
def nextTransition (s : State) : Result :=
  match s.schedule with
  | [] => engineStep s
  | t :: rest => takeTurn t { s with schedule := rest }

/-- `s` with the word `w` where the next transition fetches its instruction, and the Engine's Step made that
transition: it stands for Reset with a ROM and Start (R255, log 9). A `pc` that no fetch can use (past 4094)
becomes 512. -/
def State.placeWord (s : State) (w : Word) : State :=
  let a := if s.pc.toNat + 2 ≤ Config.memSize then s.pc.toNat else Config.romBase
  { s with
    mem := s.mem.writeList a (bytesOfWord w)
    pc := BitVec.ofNat 16 a
    run := true, fault := none, schedule := [] }

end Sys2Proof.Machine
end

