-- ==== Sys2Proof/Machine/Step.lean ====
section
/-! DEFINITION. One step of the machine, and the placing of an instruction for the next step. -/

namespace Sys2Proof.Machine

/-- One atomic transition of the machine (`20_memory.md` R72, `60_exceptions.md` R232). -/
def step (s : State) : Host.Outcome State Fault Refusal := nextTransition s

/-- `s` with the instruction whose bits are `w` (numbered as the opcode table numbers them, every bit from
`nbits` up zero) placed where the next step fetches it. -/
def State.withFetchWord (s : State) (nbits w : Nat) : State :=
  s.placeWord (BitVec.ofNat 16 (w % 2 ^ nbits))

end Sys2Proof.Machine
end

