-- ==== Sys2Proof/Machine/Assembler.lean ====
section
/-! DEFINITION. The assembly notation of `30_encoding.md` R103 to R105: from lines, labels and directives to
bytes. It is no part of the machine; the opcode map gives it the words, the encoder does not. -/

namespace Sys2Proof.Machine

/-- The number an operand writes. -/
def operandValue : Operand → Nat
  | .reg k => k
  | .const v => v
  | .label _ => 0

/-- The operand values in the places their format gives them (R92). -/
def placeOperands : Format → List Nat → Nat
  | .addr, [a] => a
  | .regByte, [x, k] => x * 256 + k
  | .twoRegs, [x, y] => x * 256 + y * 16
  | .twoRegsNibble, [x, y, n] => x * 256 + y * 16 + n
  | .regOnly, [x] => x * 256
  | _, _ => 0

/-- The one word of a line (R105), refused when the line is not well formed (R104). -/
def assembleLine (l : AsmLine) : Option Word :=
  match findRow opcodeTable l.mnemonic with
  | none => none
  | some r =>
    if r.format.accepts l.operands then
      some (r.fixed ||| BitVec.ofNat 16 (placeOperands r.format (l.operands.map operandValue)))
    else none

/-- An item of assembly text: a label, one of the two directives, or an instruction (R104, R105). -/
inductive AsmItem where
  | label (name : String)
  | org (a : Nat)
  | bytes (bs : List Nat)
  | line (l : AsmLine)
  deriving DecidableEq, Repr

/-- The address of the next byte after an item that starts at `a`. -/
def addressAfter (a : Nat) : AsmItem → Nat
  | .label _ => a
  | .org b => b
  | .bytes bs => a + bs.length
  | .line _ => a + 2

/-- The labels with their addresses: "A label `name:` stands for the address of the next emitted byte"
(R104). Of a label directly before `.org` the spec leaves open whether that is the address reached so far or the one
`.org` sets (R105), and of a label after the last byte it names no byte. DESIGN CHOICE: the label takes the address
reached so far, whatever item follows; safe, no instruction depends on it (log 17). -/
def labelTable : Nat → List AsmItem → List (String × Nat)
  | _, [] => []
  | a, .label name :: items => (name, a) :: labelTable a items
  | a, item :: items => labelTable (addressAfter a item) items

/-- The address of a label; the first definition of a name counts. DESIGN CHOICE: the spec says nothing of
a name defined twice; safe, no instruction depends on it (log 15). -/
def findLabel : List (String × Nat) → String → Option Nat
  | [], _ => none
  | (n, a) :: t, name => if n = name then some a else findLabel t name

/-- A label used where `nnn` is expected becomes its address (R104); any other label stays one and is
refused. -/
def resolveLine (labels : List (String × Nat)) (l : AsmLine) : AsmLine :=
  match findRow opcodeTable l.mnemonic, l.operands with
  | some ⟨_, .addr, _, _⟩, [.label name] =>
    match findLabel labels name with
    | some a => ⟨l.mnemonic, [.const a]⟩
    | none => l
  | _, _ => l

/-- Bytes at ascending addresses from `a`. -/
def placeBytes : Nat → List Byte → List Host.Cell
  | _, [] => []
  | a, b :: bs => (a, b) :: placeBytes (a + 1) bs

/-- The bytes of an item, each word high byte first (R105). -/
def itemBytes (labels : List (String × Nat)) : AsmItem → Option (List Byte)
  | .label _ => some []
  | .org _ => some []
  | .bytes bs => if bs.all (fun b => decide (b < 256)) then some (bs.map (BitVec.ofNat 8)) else none
  | .line l => (assembleLine (resolveLine labels l)).map bytesOfWord

/-- The bytes of items from address `a` on, in the order they are emitted. -/
def assembleFrom (labels : List (String × Nat)) : Nat → List AsmItem → Option (List Host.Cell)
  | _, [] => some []
  | a, item :: items =>
    match itemBytes labels item, assembleFrom labels (addressAfter a item) items with
    | some bs, some cells => some (placeBytes a bs ++ cells)
    | _, _ => none

/-- Assemble a program: it starts at 0x200 (R105). The spec says nothing of a byte emitted past the end of memory or
twice at one address. DESIGN CHOICE: every emitted byte is listed, in the order of the text; safe, no instruction
depends on it (log 18). -/
def assemble (items : List AsmItem) : Option (List Host.Cell) :=
  assembleFrom (labelTable Config.romBase items) Config.romBase items

end Sys2Proof.Machine
end

