-- ==== Sys2Proof/Safety.lean ====
section
/-! DEFINITION. The terms claims use: the components of the state and frames over them, when a Step is enabled,
parked states, and the invariant of the machine. -/

namespace Sys2Proof.Machine

/-- One component of the state (`10_state.md` R20): each register, memory byte, call-stack entry, pixel and
key for itself, and the model's own three fields. -/
inductive Component where
  | reg (k : Nibble)
  | cell (a : Nat)
  | index
  | pc
  | stackEntry (k : Fin Config.stackDepth)
  | depth
  | delayTimer
  | soundTimer
  | pixel (k : Nat)
  | key (k : Nat)
  | run
  | fault
  | draws
  | renders
  | schedule
  deriving DecidableEq, Repr

/-- `t` holds in the component what `s` holds. -/
def State.Same (s t : State) : Component → Prop
  | .reg k => t.reg k = s.reg k
  | .cell a => t.read a = s.read a
  | .index => t.i = s.i
  | .pc => t.pc = s.pc
  | .stackEntry k => t.stack[k] = s.stack[k]
  | .depth => t.sp = s.sp
  | .delayTimer => t.dt = s.dt
  | .soundTimer => t.st = s.st
  | .pixel k => t.fb.getLsbD k = s.fb.getLsbD k
  | .key k => t.keys.getLsbD k = s.keys.getLsbD k
  | .run => t.run = s.run
  | .fault => t.fault = s.fault
  | .draws => t.draws = s.draws
  | .renders => t.renders = s.renders
  | .schedule => t.schedule = s.schedule

/-- From `s` to `t` nothing changes but, at most, the components that `may` names. -/
def State.SameBut (s t : State) (may : Component → Prop) : Prop := ∀ c, ¬ may c → s.Same t c

/-- The next transition is the Engine's: by an empty schedule or by its first entry (log 6). -/
def State.EnginesTurn (s : State) : Prop := s.schedule = [] ∨ ∃ rest, s.schedule = .engine :: rest

/-- `s` with the first turn of its schedule used up: the state the transition that has the turn is made in (log 6). -/
def State.afterTurn (s : State) : State := { s with schedule := s.schedule.tail }

/-- The next transition is a Step of the Engine, and it is enabled (`40_execution_engine.md` R120). -/
structure State.Ready (s : State) : Prop where
  running : s.run = true
  unfaulted : s.fault = none
  enginesTurn : s.EnginesTurn

/-- `s` with OutOfBounds raised by an access from `base`, and nothing else changed; the payload is `max(base, 4096)`
(`60_exceptions.md` R212, R216). -/
def State.outOfBoundsAt (s : State) (base : Word) : State :=
  { s with fault := some (.outOfBounds (BitVec.ofNat 16 (max base.toNat 4096))) }

/-- Parked (`70_reset_and_hazards.md` R267 (c)): `pc` holds the address of a jump to itself. -/
def State.Parked (s : State) : Prop := ∃ nnn, s.fetch = .ok (.jump nnn) ∧ zextAddr nnn = s.pc

/-- The word with the number `n` is the instruction `i` (`30_encoding.md` R96). -/
def WordIs (n : Nat) (i : Instr) : Prop := decodeWord (BitVec.ofNat 16 n) = .ok i

/-- The sprite of `n` rows at `I` with the origin `(ox, oy)` has a 1 bit on the pixel in column `px`, row `py`:
row `r` is the byte at `I + r`, column `c` its bit `7 - c` (`45_display.md` R192). -/
def State.Covers (s : State) (ox oy n px py : Nat) : Prop :=
  ∃ r < n, ∃ c < 8, (s.read (s.i.toNat + r)).getLsbD (7 - c) = true ∧ py = (oy + r) % 32 ∧ px = (ox + c) % 64

/-- The pc classes of `40_execution_engine.md` R124. -/
inductive PcClass where
  | redirect
  | skip
  | wait
  | sequential
  deriving DecidableEq, Repr

/-- The pc class of an instruction (R124). -/
def pcClassOf : Instr → PcClass
  | .ret | .jump _ | .call _ | .jumpPlusV0 _ => .redirect
  | .skipEqConst _ _ | .skipNeqConst _ _ | .skipEqReg _ _ | .skipNeqReg _ _ | .skipKeyPressed _ | .skipKeyNotPressed _ => .skip
  | .awaitKey _ => .wait
  | .clearScreen | .setConst _ _ | .addConst _ _ | .setReg _ _ | .or _ _ | .and _ _ => .sequential
  | .xor _ _ | .add _ _ | .sub _ _ | .shiftRight _ _ | .subReverse _ _ | .shiftLeft _ _ => .sequential
  | .setIndex _ | .randMask _ _ | .draw _ _ _ | .getDelay _ | .setDelay _ | .setSound _ => .sequential
  | .addToIndex _ | .setIndexFont _ | .storeBCD _ | .dumpRegs _ | .loadRegs _ => .sequential

/-- The key whose number is the byte `v` is pressed (`46_keypad_timers.md` R200). -/
def State.KeyHeld (s : State) (v : Byte) : Prop := v.toNat ≤ 15 ∧ s.keys.getLsbD v.toNat = true

/-- The condition of a conditional skip (`42_skips.md` R150 to R153, `46_keypad_timers.md` R201, R202) or of the wait
(R203); the other classes have none. -/
def State.Condition (s : State) : Instr → Prop
  | .skipEqConst x nn => s.reg x = nn
  | .skipNeqConst x nn => s.reg x ≠ nn
  | .skipEqReg x y => s.reg x = s.reg y
  | .skipNeqReg x y => s.reg x ≠ s.reg y
  | .skipKeyPressed x | .awaitKey x => s.KeyHeld (s.reg x)
  | .skipKeyNotPressed x => ¬ s.KeyHeld (s.reg x)
  | .ret | .jump _ | .call _ | .jumpPlusV0 _ | .clearScreen | .setConst _ _ | .addConst _ _ | .setReg _ _ => False
  | .or _ _ | .and _ _ | .xor _ _ | .add _ _ | .sub _ _ | .shiftRight _ _ | .subReverse _ _ | .shiftLeft _ _ => False
  | .setIndex _ | .randMask _ _ | .draw _ _ _ | .getDelay _ | .setDelay _ | .setSound _ => False
  | .addToIndex _ | .setIndexFont _ | .storeBCD _ | .dumpRegs _ | .loadRegs _ => False

/-- `w` is where a redirecting instruction sets `pc` (`41_control_flow.md` R140 to R143); the other classes set it
nowhere. -/
def State.RedirectsTo (s : State) (w : Word) : Instr → Prop
  | .ret => ∃ h : 0 < s.sp.val, w = s.stack[s.sp.val - 1]'(by have := s.sp.isLt; omega)
  | .jump nnn | .call nnn => w.toNat = nnn.toNat
  | .jumpPlusV0 nnn => w.toNat = nnn.toNat + (s.reg 0#4).toNat
  | .skipEqConst _ _ | .skipNeqConst _ _ | .skipEqReg _ _ | .skipNeqReg _ _ | .skipKeyPressed _ => False
  | .skipKeyNotPressed _ | .awaitKey _ | .clearScreen | .setConst _ _ | .addConst _ _ | .setReg _ _ => False
  | .or _ _ | .and _ _ | .xor _ _ | .add _ _ | .sub _ _ | .shiftRight _ _ | .subReverse _ _ | .shiftLeft _ _ => False
  | .setIndex _ | .randMask _ _ | .draw _ _ _ | .getDelay _ | .setDelay _ | .setSound _ => False
  | .addToIndex _ | .setIndexFont _ | .storeBCD _ | .dumpRegs _ | .loadRegs _ => False

/-- The largest value `pc` can take, 0xFFF + 0xFF (`40_execution_engine.md` R129). -/
def pcMax : Nat := 0x10FE

/-- The invariant: memory is in canonical form, `pc` is at most 0x10FE, and every call-stack entry in use is
a return address of at most 4096 (`10_state.md` R39, `40_execution_engine.md` R129). -/
structure State.Inv (s : State) : Prop where
  mem : s.mem.wf = true
  pc : s.pc.toNat ≤ pcMax
  stack : ∀ (k : Nat) (h : k < Config.stackDepth), k < s.sp.val → (s.stack[k]'h).toNat ≤ Config.memSize

end Sys2Proof.Machine
end

