-- ==== Sys2Proof/Certificates/Slice0/Obligations.lean ====
section
/-! DEFINITION. The statements for the provers. Each docstring names the rules of `spec/` it formalises. A result
statement says that the instruction answers a next state, what that state holds, and (`SameBut`) that nothing else
changes; `n` is the instruction's word as a number, from its encoding. -/

open Sys2Proof Sys2Proof.Machine

/-! ### Encoding -/

/-- Words of `95_test_vectors.md` section 2.1, one or more per family, decode to the instructions they stand
for. -/
def Obligations.WorkedWordsDecode : Prop :=
  WordIs 0x00E0 .clearScreen ∧ WordIs 0x2FFF (.call 0xFFF) ∧ WordIs 0x3A7F (.skipEqConst 10 0x7F) ∧
  WordIs 0x8126 (.shiftRight 1 2) ∧ WordIs 0xA123 (.setIndex 0x123) ∧ WordIs 0xD125 (.draw 1 2 5) ∧
  WordIs 0xE1A1 (.skipKeyNotPressed 1) ∧ WordIs 0xF11E (.addToIndex 1) ∧
  decodeWord 0x5AB1 = .error (.unknownOpcode 0x5AB1)

/-- Decoding an encoded instruction gives it back, for every instruction and every operand value. Rests on the
spec's derived round trip (`30_encoding.md` section 5, its last paragraph). -/
def Obligations.DecodeOfEncodeIsIdentity : Prop := ∀ i : Instr, i.wellFormed = true ∧ decodeWord (encode i) = .ok i

/-- Encoding a decoded word gives the word back: no two words are one instruction, no bit is dropped. Rests on
the spec's derived round trip (`30_encoding.md` section 5). -/
def Obligations.EncodeOfDecodeIsIdentity : Prop := ∀ (w : Word) (i : Instr), decodeWord w = .ok i → encode i = w

/-- R94, R95: the decision tree and the opcode map agree on all words. A word that decodes matches the row of
its instruction and no other row; a word that matches no row is UnknownOpcode with the word. -/
def Obligations.DecoderAgreesWithOpcodeMap : Prop :=
  (∀ (w : Word) (i : Instr), decodeWord w = .ok i →
    ∀ r ∈ opcodeTable, (w &&& r.mask = r.fixed ↔ r.mnemonic = i.line.mnemonic)) ∧
  ∀ w : Word, (∀ r ∈ opcodeTable, w &&& r.mask ≠ r.fixed) ↔ decodeWord w = .error (.unknownOpcode w)

/-- R103, R105: the assembler, which places operands by the opcode map, gives every instruction's line the word
the encoder gives the instruction. -/
def Obligations.AssemblerAgreesWithEncoder : Prop := ∀ i : Instr, assembleLine i.line = some (encode i)

/-! ### The Step and its faults -/

/-- When the Engine's Step is enabled, by an empty schedule or by the first turn of a longer one, and the word at `pc`
decodes, the step is that instruction's effect on the state with the turn used up, and nothing around it; when fetch
or decode raises a fault, the step is that fault's entry on the same state (`40_execution_engine.md` sections 1 and 3).
The schedule, and that a turn of it is used up, is the model's own (log 6). -/
def Obligations.StepRunsDecodedInstruction : Prop :=
  ∀ s : State, s.Ready →
    (∀ i, s.pc.toNat + 1 ≤ 4095 → decodeWord (s.read s.pc.toNat ++ s.read (s.pc.toNat + 1)) = .ok i →
      step s = exec i s.afterTurn) ∧
    ∀ f, s.fetch = .error f → step s = .next { s.afterTurn with fault := some f }

/-- A fetch past the end of memory raises OutOfBounds and nothing else happens but that the turn is used up (log 6);
with `pc = 4095` the payload is 4096, with `pc >= 4096` it is `pc` (`40_execution_engine.md` section 1, Fetch). -/
def Obligations.FetchPastMemoryFaults : Prop :=
  ∀ s : State, s.Ready → 4095 ≤ s.pc.toNat →
    step s = .next { s.afterTurn with fault := some (.outOfBounds (if s.pc.toNat = 4095 then 4096 else s.pc)) }

/-- R211: a word that matches no row raises UnknownOpcode with that word, and nothing else happens. Of the schedule,
the model's own (log 6), nothing is said here: `TurnsAreTakenInOrder` does. -/
def Obligations.UnmatchedWordFaults : Prop :=
  ∀ (s : State) (w : Word), s.Ready → s.pc.toNat + 1 ≤ 4095 →
    w = s.read s.pc.toNat ++ s.read (s.pc.toNat + 1) → (∀ r ∈ opcodeTable, w &&& r.mask ≠ r.fixed) →
    ∃ rest, step s = .next { s with fault := some (.unknownOpcode w), schedule := rest }

/-- R216: a Step that raises a fault changes the latch only, and then the Engine has no transition when the turn is
its own. Of the schedule, the model's own (log 6), nothing is said here: `TurnsAreTakenInOrder` does. -/
def Obligations.FaultsArePrecise : Prop :=
  ∀ (s t : State) (f : FaultKind), s.Ready → step s = .next t → t.fault = some f →
    t = { s with fault := some f, schedule := t.schedule } ∧ (t.EnginesTurn → ∀ u, step t ≠ .next u)

/-- R212: the fetch and the four memory instructions raise OutOfBounds when their access would pass 4095, with the
payload `max(base, 4096)`, and nothing else happens. Draw with `n = 0` makes no check. Of the
schedule, the model's own (log 6), the first clause says nothing. -/
def Obligations.AccessPastMemoryRaisesOutOfBounds : Prop :=
  ∀ (s : State) (x y n : Nibble),
    (s.Ready → 4095 < s.pc.toNat + 1 → ∃ rest, step s = .next ({ s with schedule := rest }.outOfBoundsAt s.pc)) ∧
    (4095 < s.i.toNat + 2 → exec (.storeBCD x) s = .next (s.outOfBoundsAt s.i)) ∧
    (4095 < s.i.toNat + x.toNat → exec (.dumpRegs x) s = .next (s.outOfBoundsAt s.i)) ∧
    (4095 < s.i.toNat + x.toNat → exec (.loadRegs x) s = .next (s.outOfBoundsAt s.i)) ∧
    (0 < n.toNat → 4095 < s.i.toNat + n.toNat - 1 → exec (.draw x y n) s = .next (s.outOfBoundsAt s.i))

/-- R215: no instruction but these raises a fault: the four memory instructions, Call and Return. -/
def Obligations.OnlySixInstructionsFault : Prop :=
  ∀ (i : Instr) (s t : State), exec i s = .next t → t.fault ≠ s.fault →
    i = .ret ∨ (∃ nnn, i = .call nnn) ∨ (∃ x y n, i = .draw x y n) ∨ (∃ x, i = .storeBCD x) ∨
    (∃ x, i = .dumpRegs x) ∨ ∃ x, i = .loadRegs x

/-- The latch is cleared only by Reset (`60_exceptions.md` section 2): any other transition keeps it. -/
def Obligations.FaultLatchClearedOnlyByReset : Prop :=
  ∀ (s t : State) (f : FaultKind), s.fault = some f → step s = .next t →
    t.fault = some f ∨ ∃ rom rest, s.schedule = .reset rom :: rest

/-- Step is enabled exactly when `run = 1` and `fault = None` (`40_execution_engine.md` section 1): the Engine's
turn, by an empty schedule or by its first entry (log 6), then answers a next state; else it stops. That the missing
transition is a stop with these names is the model's choice (log 7). -/
def Obligations.StepEnabledExactlyWhenRunningUnfaulted : Prop :=
  ∀ s : State, s.EnginesTurn →
    ((∃ t, step s = .next t) ↔ s.run = true ∧ s.fault = none) ∧
    (∀ f, s.fault = some f → step s = .fault (.engineFaulted f)) ∧
    (s.fault = none → s.run = false → step s = .fault .engineStopped)

/-! ### Control transfer -/

/-- R140, R214: pops; with an empty stack StackUnderflow and nothing else. -/
def Obligations.ReturnPopsIntoPc : Prop :=
  WordIs 0x00EE .ret ∧
  (∀ s : State, s.sp.val = 0 → exec .ret s = .next { s with fault := some .stackUnderflow }) ∧
  ∀ (s : State) (h : 0 < s.sp.val), ∃ t, exec .ret s = .next t ∧
    t.pc = s.stack[s.sp.val - 1]'(by have := s.sp.isLt; omega) ∧ t.sp.val = s.sp.val - 1 ∧
    s.SameBut t fun c => c = .pc ∨ c = .depth

/-- R141. -/
def Obligations.JumpSetsPc : Prop :=
  ∀ (s : State) (nnn : Addr), WordIs (0x1000 + nnn.toNat) (.jump nnn) ∧
    ∃ t, exec (.jump nnn) s = .next t ∧ t.pc.toNat = nnn.toNat ∧ s.SameBut t fun c => c = .pc

/-- R142, R213: pushes `pc + 2`; with a full stack StackOverflow and nothing else. -/
def Obligations.CallPushesNextAddress : Prop :=
  ∀ (s : State) (nnn : Addr), WordIs (0x2000 + nnn.toNat) (.call nnn) ∧
    (s.sp.val = Config.stackDepth → exec (.call nnn) s = .next { s with fault := some .stackOverflow }) ∧
    ∀ h : s.sp.val < Config.stackDepth, ∃ t, exec (.call nnn) s = .next t ∧
      t.stack[s.sp.val]'h = s.pc + 2 ∧ t.sp.val = s.sp.val + 1 ∧ t.pc.toNat = nnn.toNat ∧
      s.SameBut t fun c => c = .pc ∨ c = .depth ∨ c = .stackEntry ⟨s.sp.val, h⟩

/-- R143: the sum is not reduced modulo 4096. -/
def Obligations.JumpPlusV0AddsUnreduced : Prop :=
  ∀ (s : State) (nnn : Addr), WordIs (0xB000 + nnn.toNat) (.jumpPlusV0 nnn) ∧
    ∃ t, exec (.jumpPlusV0 nnn) s = .next t ∧ t.pc.toNat = nnn.toNat + (s.reg 0#4).toNat ∧
      s.SameBut t fun c => c = .pc

/-- A Return that follows a Call comes back to the instruction after the call with the depth it had
(`41_control_flow.md`, Return and Call). -/
def Obligations.ReturnUndoesCall : Prop :=
  ∀ (s t u : State) (nnn : Addr), s.sp.val < Config.stackDepth → exec (.call nnn) s = .next t →
    u.stack = t.stack → u.sp = t.sp →
    ∃ r, exec .ret u = .next r ∧ r.pc = s.pc + 2 ∧ r.sp = s.sp

/-! ### Skips -/

/-- R150, R151, R152, R153: the four register skips, with `pc + 4` when the condition holds and `pc + 2` when it
does not; a nonzero low nibble of the register-to-register words is UnknownOpcode. -/
def Obligations.RegisterSkipsAdvanceByFourOrTwo : Prop :=
  ∀ (s : State) (x y : Nibble) (nn : Byte),
    WordIs (0x3000 + 256 * x.toNat + nn.toNat) (.skipEqConst x nn) ∧
    WordIs (0x4000 + 256 * x.toNat + nn.toNat) (.skipNeqConst x nn) ∧
    WordIs (0x5000 + 256 * x.toNat + 16 * y.toNat) (.skipEqReg x y) ∧
    WordIs (0x9000 + 256 * x.toNat + 16 * y.toNat) (.skipNeqReg x y) ∧
    (∀ n : Nibble, n ≠ 0 → ∀ base ∈ [0x5000, 0x9000],
      let w : Word := BitVec.ofNat 16 (base + 256 * x.toNat + 16 * y.toNat + n.toNat)
      decodeWord w = .error (.unknownOpcode w)) ∧
    exec (.skipEqConst x nn) s = .next { s with pc := if s.reg x = nn then s.pc + 4 else s.pc + 2 } ∧
    exec (.skipNeqConst x nn) s = .next { s with pc := if s.reg x ≠ nn then s.pc + 4 else s.pc + 2 } ∧
    exec (.skipEqReg x y) s = .next { s with pc := if s.reg x = s.reg y then s.pc + 4 else s.pc + 2 } ∧
    exec (.skipNeqReg x y) s = .next { s with pc := if s.reg x ≠ s.reg y then s.pc + 4 else s.pc + 2 }

/-! ### Registers and arithmetic -/

/-- R160, R162. -/
def Obligations.SetConstAndSetRegCopy : Prop :=
  ∀ (s : State) (x y : Nibble) (nn : Byte),
    WordIs (0x6000 + 256 * x.toNat + nn.toNat) (.setConst x nn) ∧
    WordIs (0x8000 + 256 * x.toNat + 16 * y.toNat) (.setReg x y) ∧
    (∃ t, exec (.setConst x nn) s = .next t ∧ t.reg x = nn ∧ t.pc = s.pc + 2 ∧
      s.SameBut t fun c => c = .pc ∨ c = .reg x) ∧
    ∃ t, exec (.setReg x y) s = .next t ∧ t.reg x = s.reg y ∧ t.pc = s.pc + 2 ∧
      s.SameBut t fun c => c = .pc ∨ c = .reg x

/-- R161: the sum wraps modulo 256 and no flag is written. -/
def Obligations.AddConstWrapsWithoutFlag : Prop :=
  ∀ (s : State) (x : Nibble) (nn : Byte),
    WordIs (0x7000 + 256 * x.toNat + nn.toNat) (.addConst x nn) ∧
    ∃ t, exec (.addConst x nn) s = .next t ∧
      (t.reg x).toNat = ((s.reg x).toNat + nn.toNat) % 256 ∧ t.pc = s.pc + 2 ∧
      s.SameBut t fun c => c = .pc ∨ c = .reg x

/-- R163, R164, R165: bit by bit, and no flag is written. -/
def Obligations.LogicInstructionsActBitwise : Prop :=
  ∀ (s : State) (x y : Nibble),
    WordIs (0x8001 + 256 * x.toNat + 16 * y.toNat) (.or x y) ∧
    WordIs (0x8002 + 256 * x.toNat + 16 * y.toNat) (.and x y) ∧
    WordIs (0x8003 + 256 * x.toNat + 16 * y.toNat) (.xor x y) ∧
    (∃ t, exec (.or x y) s = .next t ∧ t.pc = s.pc + 2 ∧
      (∀ k, (t.reg x).getLsbD k = ((s.reg x).getLsbD k || (s.reg y).getLsbD k)) ∧
      s.SameBut t fun c => c = .pc ∨ c = .reg x) ∧
    (∃ t, exec (.and x y) s = .next t ∧ t.pc = s.pc + 2 ∧
      (∀ k, (t.reg x).getLsbD k = ((s.reg x).getLsbD k && (s.reg y).getLsbD k)) ∧
      s.SameBut t fun c => c = .pc ∨ c = .reg x) ∧
    ∃ t, exec (.xor x y) s = .next t ∧ t.pc = s.pc + 2 ∧
      (∀ k, (t.reg x).getLsbD k = ((s.reg x).getLsbD k ^^ (s.reg y).getLsbD k)) ∧
      s.SameBut t fun c => c = .pc ∨ c = .reg x

/-- R166: with `x = 15` the carry stands (R171). -/
def Obligations.AddSetsCarry : Prop :=
  ∀ (s : State) (x y : Nibble),
    WordIs (0x8004 + 256 * x.toNat + 16 * y.toNat) (.add x y) ∧
    ∃ t, exec (.add x y) s = .next t ∧
      (x ≠ 15#4 → (t.reg x).toNat = ((s.reg x).toNat + (s.reg y).toNat) % 256) ∧
      t.reg 15#4 = (if 255 < (s.reg x).toNat + (s.reg y).toNat then 1 else 0) ∧ t.pc = s.pc + 2 ∧
      s.SameBut t fun c => c = .pc ∨ c = .reg x ∨ c = .reg 15#4

/-- R167, R169: the difference wraps and the flag is "no borrow", equality included; with `x = 15` the flag
stands (R171). -/
def Obligations.SubtractionsSetNoBorrow : Prop :=
  ∀ (s : State) (x y : Nibble),
    WordIs (0x8005 + 256 * x.toNat + 16 * y.toNat) (.sub x y) ∧
    WordIs (0x8007 + 256 * x.toNat + 16 * y.toNat) (.subReverse x y) ∧
    (∃ t, exec (.sub x y) s = .next t ∧
      (x ≠ 15#4 → (t.reg x).toNat =
        if (s.reg y).toNat ≤ (s.reg x).toNat then (s.reg x).toNat - (s.reg y).toNat
        else (s.reg x).toNat + 256 - (s.reg y).toNat) ∧
      t.reg 15#4 = (if (s.reg y).toNat ≤ (s.reg x).toNat then 1 else 0) ∧ t.pc = s.pc + 2 ∧
      s.SameBut t fun c => c = .pc ∨ c = .reg x ∨ c = .reg 15#4) ∧
    ∃ t, exec (.subReverse x y) s = .next t ∧
      (x ≠ 15#4 → (t.reg x).toNat =
        if (s.reg x).toNat ≤ (s.reg y).toNat then (s.reg y).toNat - (s.reg x).toNat
        else (s.reg y).toNat + 256 - (s.reg x).toNat) ∧
      t.reg 15#4 = (if (s.reg x).toNat ≤ (s.reg y).toNat then 1 else 0) ∧ t.pc = s.pc + 2 ∧
      s.SameBut t fun c => c = .pc ∨ c = .reg x ∨ c = .reg 15#4

/-- R168, R170: `Vy` is shifted by one, the flag is the bit moved out; with `x = 15` the flag stands (R171). -/
def Obligations.ShiftsMoveVyByOne : Prop :=
  ∀ (s : State) (x y : Nibble),
    WordIs (0x8006 + 256 * x.toNat + 16 * y.toNat) (.shiftRight x y) ∧
    WordIs (0x800E + 256 * x.toNat + 16 * y.toNat) (.shiftLeft x y) ∧
    (∃ t, exec (.shiftRight x y) s = .next t ∧
      (x ≠ 15#4 → (t.reg x).toNat = (s.reg y).toNat / 2) ∧
      (t.reg 15#4).toNat = (s.reg y).toNat % 2 ∧ t.pc = s.pc + 2 ∧
      s.SameBut t fun c => c = .pc ∨ c = .reg x ∨ c = .reg 15#4) ∧
    ∃ t, exec (.shiftLeft x y) s = .next t ∧
      (x ≠ 15#4 → (t.reg x).toNat = 2 * (s.reg y).toNat % 256) ∧
      (t.reg 15#4).toNat = (s.reg y).toNat / 128 ∧ t.pc = s.pc + 2 ∧
      s.SameBut t fun c => c = .pc ∨ c = .reg x ∨ c = .reg 15#4

/-- R173: the draw is a free byte `Config.randomByte s.draws`, of which nothing is known, and the next execution
takes a new one; where `nn` has a 0 the result has a 0. -/
def Obligations.RandMaskMasksAFreshDraw : Prop :=
  ∀ (s : State) (x : Nibble) (nn : Byte),
    WordIs (0xC000 + 256 * x.toNat + nn.toNat) (.randMask x nn) ∧
    ∃ t, exec (.randMask x nn) s = .next t ∧ t.reg x = Config.randomByte s.draws &&& nn ∧
      (∀ k, nn.getLsbD k = false → (t.reg x).getLsbD k = false) ∧
      t.draws = s.draws + 1 ∧ t.pc = s.pc + 2 ∧
      s.SameBut t fun c => c = .pc ∨ c = .reg x ∨ c = .draws

/-! ### Index register and memory -/

/-- R180. -/
def Obligations.SetIndexLoadsNnn : Prop :=
  ∀ (s : State) (nnn : Addr), WordIs (0xA000 + nnn.toNat) (.setIndex nnn) ∧
    ∃ t, exec (.setIndex nnn) s = .next t ∧ t.i.toNat = nnn.toNat ∧ t.pc = s.pc + 2 ∧
      s.SameBut t fun c => c = .pc ∨ c = .index

/-- R181: `I` wraps at 16 bits only, the flag is computed from the unwrapped sum. -/
def Obligations.AddToIndexFlagsTwelveBitOverflow : Prop :=
  ∀ (s : State) (x : Nibble), WordIs (0xF01E + 256 * x.toNat) (.addToIndex x) ∧
    ∃ t, exec (.addToIndex x) s = .next t ∧
      t.i.toNat = (s.i.toNat + (s.reg x).toNat) % 65536 ∧
      t.reg 15#4 = (if 0x0FFF < s.i.toNat + (s.reg x).toNat then 1 else 0) ∧ t.pc = s.pc + 2 ∧
      s.SameBut t fun c => c = .pc ∨ c = .index ∨ c = .reg 15#4

/-- R182: the low 4 bits of `Vx` select the glyph, 5 bytes each from `FONT_BASE`. -/
def Obligations.SetIndexFontSelectsGlyph : Prop :=
  ∀ (s : State) (x : Nibble), WordIs (0xF029 + 256 * x.toNat) (.setIndexFont x) ∧
    ∃ t, exec (.setIndexFont x) s = .next t ∧
      t.i.toNat = fontBase + 5 * ((s.reg x).toNat % 16) ∧ t.pc = s.pc + 2 ∧
      s.SameBut t fun c => c = .pc ∨ c = .index

/-- R184: hundreds, tens and ones at `I`, `I + 1`, `I + 2`, or OutOfBounds and no byte written. Memory is in canonical form, which every step keeps
(`InvariantKeptByEveryStep`). -/
def Obligations.StoreBCDWritesThreeDigits : Prop :=
  ∀ (s : State) (x : Nibble), WordIs (0xF033 + 256 * x.toNat) (.storeBCD x) ∧
    (4095 < s.i.toNat + 2 → exec (.storeBCD x) s = .next (s.outOfBoundsAt s.i)) ∧
    (s.mem.wf = true → s.i.toNat + 2 ≤ 4095 → ∃ t, exec (.storeBCD x) s = .next t ∧
      (t.read s.i.toNat).toNat = (s.reg x).toNat / 100 ∧
      (t.read (s.i.toNat + 1)).toNat = (s.reg x).toNat / 10 % 10 ∧
      (t.read (s.i.toNat + 2)).toNat = (s.reg x).toNat % 10 ∧ t.pc = s.pc + 2 ∧
      s.SameBut t fun c => c = .pc ∨ ∃ k < 3, c = .cell (s.i.toNat + k))

/-- R185: `V[0]` to `V[x]` at `I` to `I + x`, or OutOfBounds and no byte written; `I` is unchanged. -/
def Obligations.DumpRegsStoresBlock : Prop :=
  ∀ (s : State) (x : Nibble), WordIs (0xF055 + 256 * x.toNat) (.dumpRegs x) ∧
    (4095 < s.i.toNat + x.toNat → exec (.dumpRegs x) s = .next (s.outOfBoundsAt s.i)) ∧
    (s.mem.wf = true → s.i.toNat + x.toNat ≤ 4095 → ∃ t, exec (.dumpRegs x) s = .next t ∧
      (∀ k : Nibble, k.toNat ≤ x.toNat → t.read (s.i.toNat + k.toNat) = s.reg k) ∧ t.pc = s.pc + 2 ∧
      s.SameBut t fun c => c = .pc ∨ ∃ k ≤ x.toNat, c = .cell (s.i.toNat + k))

/-- R186: `V[0]` to `V[x]` from `I` to `I + x`, or OutOfBounds and no register written; `I`, memory and the
registers above `x` are unchanged. -/
def Obligations.LoadRegsLoadsBlock : Prop :=
  ∀ (s : State) (x : Nibble), WordIs (0xF065 + 256 * x.toNat) (.loadRegs x) ∧
    (4095 < s.i.toNat + x.toNat → exec (.loadRegs x) s = .next (s.outOfBoundsAt s.i)) ∧
    (s.i.toNat + x.toNat ≤ 4095 → ∃ t, exec (.loadRegs x) s = .next t ∧
      (∀ k : Nibble, k.toNat ≤ x.toNat → t.reg k = s.read (s.i.toNat + k.toNat)) ∧ t.pc = s.pc + 2 ∧
      s.SameBut t fun c => c = .pc ∨ ∃ k : Nibble, k.toNat ≤ x.toNat ∧ c = .reg k)

/-- A stored word is what the very next fetch sees, with nothing in between (`20_memory.md` section 8, fetch
coherence). -/
def Obligations.StoredWordIsFetchedNext : Prop :=
  ∀ (s : State) (x : Nibble), s.Ready → s.mem.wf = true → s.fetch = .ok (.dumpRegs x) → 1 ≤ x.toNat →
    s.i = s.pc + 2 → s.i.toNat + x.toNat ≤ 4095 →
    ∃ t, step s = .next t ∧ t.fetchWord = s.reg 0#4 ++ s.reg 1#4

/-! ### Display -/

/-- R190: every cell 0, one Render event with the clear frame. -/
def Obligations.ClearScreenClearsAndRenders : Prop :=
  WordIs 0x00E0 .clearScreen ∧
  ∀ s : State, ∃ t, exec .clearScreen s = .next t ∧ (∀ k, t.fb.getLsbD k = false) ∧
    t.renders = ⟨0, 64, 32⟩ :: s.renders ∧ t.pc = s.pc + 2 ∧
    s.SameBut t fun c => c = .pc ∨ c = .renders ∨ ∃ k < 2048, c = .pixel k

/-- Each pixel under a 1 bit of the sprite is inverted, every other pixel stays; `VF` is 1 exactly when some pixel
went from 1 to 0; the finished frame is rendered. A sprite that would pass the end of memory is OutOfBounds and draws
nothing (`45_display.md`, Draw and pixel geometry). Which pixels those are rests on bit 7 of a sprite byte being the
leftmost column, which the spec marks as general knowledge (its K3, decision D11; PRESUMED, log 14). -/
def Obligations.DrawXorsSpriteAndFlagsCollision : Prop :=
  ∀ (s : State) (x y n : Nibble),
    WordIs (0xD000 + 256 * x.toNat + 16 * y.toNat + n.toNat) (.draw x y n) ∧
    (0 < n.toNat → 4095 < s.i.toNat + n.toNat - 1 → exec (.draw x y n) s = .next (s.outOfBoundsAt s.i)) ∧
    (n.toNat = 0 ∨ s.i.toNat + n.toNat - 1 ≤ 4095 →
      let covers := s.Covers (s.reg x).toNat (s.reg y).toNat n.toNat
      ∃ t, exec (.draw x y n) s = .next t ∧
      (∀ px < 64, ∀ py < 32, t.fb.getLsbD (py * 64 + px) = true ↔
        ¬ (s.fb.getLsbD (py * 64 + px) = true ↔ covers px py)) ∧
      ((∃ px < 64, ∃ py < 32, s.fb.getLsbD (py * 64 + px) = true ∧ covers px py) → t.reg 15#4 = 1) ∧
      ((¬ ∃ px < 64, ∃ py < 32, s.fb.getLsbD (py * 64 + px) = true ∧ covers px py) → t.reg 15#4 = 0) ∧
      t.renders = ⟨t.fb, 64, 32⟩ :: s.renders ∧ t.pc = s.pc + 2 ∧
      s.SameBut t fun c => c = .pc ∨ c = .renders ∨ c = .reg 15#4 ∨ ∃ k < 2048, c = .pixel k)

/-- The double XOR the source lists as testable (`45_display.md`, "Properties of Draw"): a second equal Draw
restores the frame, and its flag is 1 exactly when the first turned a cell on. -/
def Obligations.SecondDrawRestoresFrame : Prop :=
  ∀ (s t : State) (x y n : Nibble), x ≠ 15#4 → y ≠ 15#4 → (n.toNat = 0 ∨ s.i.toNat + n.toNat - 1 ≤ 4095) →
    exec (.draw x y n) s = .next t →
    ∃ u, exec (.draw x y n) t = .next u ∧ u.fb = s.fb ∧
      (u.reg 15#4 = 1 ↔ ∃ k, s.fb.getLsbD k = false ∧ t.fb.getLsbD k = true) ∧
      (u.reg 15#4 = 1 ∨ u.reg 15#4 = 0)

/-- R231: a Step that completes ClearScreen or Draw hands out one snapshot, of the frame after it; every other
transition of every agent, a faulting Draw among them, hands out nothing. -/
def Obligations.RenderEmittedByCompletedDisplaySteps : Prop :=
  (∀ s t : State, s.EnginesTurn → step s = .next t → t.fault = none →
    (s.fetch = .ok .clearScreen ∨ ∃ x y n, s.fetch = .ok (.draw x y n)) →
    t.renders = ⟨t.fb, 64, 32⟩ :: s.renders) ∧
  ∀ s t : State, step s = .next t → t.renders ≠ s.renders → t.fault = none ∧ s.EnginesTurn ∧
    (s.fetch = .ok .clearScreen ∨ ∃ x y n, s.fetch = .ok (.draw x y n))

/-! ### Keys and timers -/

/-- R200, R201, R202: the key number is the whole byte, and a number above 15 names no key. -/
def Obligations.KeySkipsTestPressedKey : Prop :=
  ∀ (s : State) (x : Nibble),
    let pressed := (s.reg x).toNat ≤ 15 ∧ s.keys.getLsbD (s.reg x).toNat = true
    WordIs (0xE09E + 256 * x.toNat) (.skipKeyPressed x) ∧
    WordIs (0xE0A1 + 256 * x.toNat) (.skipKeyNotPressed x) ∧
    (pressed → exec (.skipKeyPressed x) s = .next { s with pc := s.pc + 4 } ∧
      exec (.skipKeyNotPressed x) s = .next { s with pc := s.pc + 2 }) ∧
    (¬ pressed → exec (.skipKeyPressed x) s = .next { s with pc := s.pc + 2 } ∧
      exec (.skipKeyNotPressed x) s = .next { s with pc := s.pc + 4 })

/-- R203: while the key is not pressed the whole state is unchanged; when it is, `pc` advances by 2 and nothing is
stored. -/
def Obligations.AwaitKeySpinsUntilPressed : Prop :=
  ∀ (s : State) (x : Nibble),
    let pressed := (s.reg x).toNat ≤ 15 ∧ s.keys.getLsbD (s.reg x).toNat = true
    WordIs (0xF00A + 256 * x.toNat) (.awaitKey x) ∧
    (pressed → exec (.awaitKey x) s = .next { s with pc := s.pc + 2 }) ∧
    (¬ pressed → exec (.awaitKey x) s = .next s)

/-- R204, R205, R206. -/
def Obligations.TimerInstructionsMoveTimers : Prop :=
  ∀ (s : State) (x : Nibble),
    WordIs (0xF007 + 256 * x.toNat) (.getDelay x) ∧ WordIs (0xF015 + 256 * x.toNat) (.setDelay x) ∧
    WordIs (0xF018 + 256 * x.toNat) (.setSound x) ∧
    (∃ t, exec (.getDelay x) s = .next t ∧ t.reg x = s.dt ∧ t.pc = s.pc + 2 ∧
      s.SameBut t fun c => c = .pc ∨ c = .reg x) ∧
    (∃ t, exec (.setDelay x) s = .next t ∧ t.dt = s.reg x ∧ t.pc = s.pc + 2 ∧
      s.SameBut t fun c => c = .pc ∨ c = .delayTimer) ∧
    ∃ t, exec (.setSound x) s = .next t ∧ t.st = s.reg x ∧ t.pc = s.pc + 2 ∧
      s.SameBut t fun c => c = .pc ∨ c = .soundTimer

/-! ### The Ticker and the Host -/

/-- R224: both timers go down by one, never below 0, in every state; nothing else changes (the schedule is the
model's own list of transitions to come, log 6). -/
def Obligations.TickDecrementsBothTimers : Prop :=
  ∀ (s : State) (rest : List Turn), s.schedule = .tick :: rest →
    ∃ t, step s = .next t ∧ t.dt.toNat = s.dt.toNat - 1 ∧ t.st.toNat = s.st.toNat - 1 ∧
      s.SameBut t fun c => c = .delayTimer ∨ c = .soundTimer ∨ c = .schedule

/-- R228, R229: a press puts its key into the set, a release takes it out, in every state; no other key and
nothing else changes (the schedule is the model's own list of transitions to come, log 6). -/
def Obligations.PressAndReleaseChangeOneKey : Prop :=
  ∀ (s : State) (k : Nibble) (rest : List Turn),
    (s.schedule = .press k :: rest → ∃ t, step s = .next t ∧ t.keys.getLsbD k.toNat = true ∧
      s.SameBut t fun c => c = .key k.toNat ∨ c = .schedule) ∧
    (s.schedule = .release k :: rest → ∃ t, step s = .next t ∧ t.keys.getLsbD k.toNat = false ∧
      s.SameBut t fun c => c = .key k.toNat ∨ c = .schedule)

/-- Start sets the run latch and Stop clears it, in every state, and nothing else changes but that the turn is
used up (`60_exceptions.md` section 9). -/
def Obligations.StartAndStopSetRunLatch : Prop :=
  ∀ (s : State) (rest : List Turn),
    (s.schedule = .start :: rest → step s = .next { s with run := true, schedule := rest }) ∧
    (s.schedule = .stop :: rest → step s = .next { s with run := false, schedule := rest })

/-- R252: Reset puts byte `i` of the ROM at address 512 + i, in order, in every state, and the first byte is the
high byte of the first instruction. -/
def Obligations.ResetPlacesRomAt512 : Prop :=
  ∀ (s : State) (rom : List Byte) (rest : List Turn), rom.length ≤ 3584 → s.schedule = .reset rom :: rest →
    ∃ t, step s = .next t ∧ t.pc = 512 ∧
      (∀ (k : Nat) (h : k < rom.length), t.read (512 + k) = rom[k]) ∧
      ∀ h : 2 ≤ rom.length, t.fetchWord = rom[0] ++ rom[1]

/-- The rest of the reset table (`10_state.md` section 16). Its values other than `pc` and the ROM are the spec's
own decisions D3, D5 and D18, not the source's; the font and its address are the defaults of open parameters (log 2),
and that an address past 4095, which no instruction reads, answers 0 is the model's choice (log 13); that the draws, the render history and the rest of the schedule
go on is the model's choice (log 4, log 5, log 6). -/
def Obligations.ResetClearsEverythingElse : Prop :=
  ∀ (s : State) (rom : List Byte) (rest : List Turn), rom.length ≤ 3584 → s.schedule = .reset rom :: rest →
    ∃ t, step s = .next t ∧
      (∀ (j : Nat) (h : j < font.length), t.read (fontBase + j) = font[j]) ∧
      (∀ a, (a < fontBase ∨ fontBase + 80 ≤ a) → (a < 512 ∨ 512 + rom.length ≤ a) → t.read a = 0) ∧
      (∀ k, t.reg k = 0) ∧ t.i = 0 ∧ t.sp.val = 0 ∧ (∀ k : Fin Config.stackDepth, t.stack[k] = 0) ∧
      t.dt = 0 ∧ t.st = 0 ∧ (∀ k, t.fb.getLsbD k = false) ∧ (∀ k, t.keys.getLsbD k = false) ∧
      t.run = false ∧ t.fault = none ∧
      t.draws = s.draws ∧ t.renders = s.renders ∧ t.schedule = rest

/-- A ROM longer than 3584 bytes is refused and no state results (`70_reset_and_hazards.md` section 1, decision
D19); the name of the refusal is the model's (log 11). -/
def Obligations.OverlongRomIsRefused : Prop :=
  ∀ (s : State) (rom : List Byte) (rest : List Turn), 3584 < rom.length → s.schedule = .reset rom :: rest →
    step s = .refused .romTooLong

/-- The state after reset: the entry point is 512 (R251); registers, timers, frame and keys are zero, the machine
is stopped and unfaulted (`10_state.md` section 16, the spec's decisions D5 and D18). The byte 0xF0 at 0x050 is the
first of the font, by the defaults of the open parameters FONT and FONT_BASE (decision D3, the font table of
`44_index_memory.md`; the model takes the defaults by DESIGN CHOICE, log 2). That an unlisted cell reads as 0 is log 3,
and that an address past 4095, which no instruction reads, answers 0 is the model's choice (log 13). -/
def Obligations.ResetStateValues : Prop :=
  State.reset.pc = 512 ∧ (∀ k, State.reset.reg k = 0) ∧ State.reset.i = 0 ∧ State.reset.sp.val = 0 ∧
  State.reset.dt = 0 ∧ State.reset.st = 0 ∧ State.reset.fb = 0 ∧ State.reset.keys = 0 ∧
  State.reset.run = false ∧ State.reset.fault = none ∧
  (∀ a, 512 ≤ a → State.reset.read a = 0) ∧ State.reset.read 0x050 = 0xF0

/-- Every transition uses up exactly the first entry of the schedule, whoever makes it, and so the transitions
happen one at a time in its order. The schedule is the model's own (log 6); that transitions are atomic and in one
total order is `60_exceptions.md` section 8. -/
def Obligations.TurnsAreTakenInOrder : Prop := ∀ s t : State, step s = .next t → t.schedule = s.schedule.tail

/-! ### The whole machine -/

/-- The invariant holds after reset: memory is in canonical form, `pc` is at most 0x10FE and every return address in
use is at most 4096. -/
def Obligations.InvariantHoldsAtReset : Prop := State.reset.Inv

/-- Every step of every agent keeps the invariant: memory stays in canonical form, `pc` stays at most 0x10FE and
every return address in use at most 4096 (`40_execution_engine.md` section 4, derived by the spec). -/
def Obligations.InvariantKeptByEveryStep : Prop :=
  ∀ s t : State, s.Inv → step s = .next t → t.Inv

/-- Only StoreBCD and DumpRegs change memory, and only inside their block (`20_memory.md` section 6, the access
table). -/
def Obligations.OnlyStoresChangeMemory : Prop :=
  ∀ (i : Instr) (s t : State) (a : Nat), exec i s = .next t → t.read a ≠ s.read a →
    (∃ x, i = .storeBCD x ∧ s.i.toNat ≤ a ∧ a < s.i.toNat + 3) ∨
    ∃ x, i = .dumpRegs x ∧ s.i.toNat ≤ a ∧ a ≤ s.i.toNat + x.toNat

/-- Only ClearScreen, Draw and Reset change the framebuffer; no Tick, key event, Start or Stop does
(`45_display.md`, last paragraph). -/
def Obligations.OnlyDisplayInstructionsChangeFrame : Prop :=
  ∀ s t : State, step s = .next t → t.fb ≠ s.fb →
    (∃ rom rest, s.schedule = .reset rom :: rest) ∨
    s.EnginesTurn ∧ (s.fetch = .ok .clearScreen ∨ ∃ x y n, s.fetch = .ok (.draw x y n))

/-- No instruction changes the key set or the run latch, nor the delay and sound timers but by their own two
instructions (`10_state.md` sections 1, 6, 8 and 10, the owners of writes). That none changes the schedule either is
about a field of the model's own, which no file of the spec gives (DESIGN CHOICE, log 6). -/
def Obligations.InstructionsKeepHostOwnedState : Prop :=
  ∀ (i : Instr) (s t : State), exec i s = .next t →
    t.keys = s.keys ∧ t.run = s.run ∧ t.schedule = s.schedule ∧
    (t.dt ≠ s.dt → ∃ x, i = .setDelay x) ∧ (t.st ≠ s.st → ∃ x, i = .setSound x)

/-- Between sets the timers never rise: a step that raises the delay timer ran SetDelay, one that raises the sound
timer ran SetSound (`10_state.md` section 6). -/
def Obligations.TimersFallBetweenSets : Prop :=
  ∀ s t : State, step s = .next t →
    (s.dt.toNat < t.dt.toNat → s.EnginesTurn ∧ ∃ x, s.fetch = .ok (.setDelay x)) ∧
    (s.st.toNat < t.st.toNat → s.EnginesTurn ∧ ∃ x, s.fetch = .ok (.setSound x))

/-- `VF` is written by the seven flag-setting instructions and by instructions that name it as their destination,
and by no other (`10_state.md` section 11). -/
def Obligations.OnlyFlagInstructionsWriteVF : Prop :=
  ∀ (i : Instr) (s t : State), exec i s = .next t → t.reg 15#4 ≠ s.reg 15#4 →
    (∃ x y, i = .add x y ∨ i = .sub x y ∨ i = .shiftRight x y ∨ i = .subReverse x y ∨ i = .shiftLeft x y) ∨
    (∃ x y n, i = .draw x y n) ∨ (∃ x, i = .addToIndex x) ∨
    (∃ nn, i = .setConst 15#4 nn ∨ i = .addConst 15#4 nn ∨ i = .randMask 15#4 nn) ∨
    (∃ y, i = .setReg 15#4 y ∨ i = .or 15#4 y ∨ i = .and 15#4 y ∨ i = .xor 15#4 y) ∨
    i = .getDelay 15#4 ∨ i = .loadRegs 15#4

/-- A Tick may come before or after an instruction that neither reads nor writes a timer: the result is the same
(`20_memory.md` section 8; `60_exceptions.md` section 8, the state shared between agents). -/
def Obligations.TickCommutesWithTimerFreeInstructions : Prop :=
  ∀ (i : Instr) (s t : State), (∀ x, i ≠ .getDelay x ∧ i ≠ .setDelay x ∧ i ≠ .setSound x) →
    exec i s = .next t → exec i s.tick = .next t.tick

/-- What the Host does to the keys is seen by no instruction but the three that read them: with another key set
the result differs in the key set alone (`10_state.md` section 8). -/
def Obligations.KeysSeenByKeyInstructionsOnly : Prop :=
  ∀ (i : Instr) (s t : State) (ks : KeySet),
    (∀ x, i ≠ .skipKeyPressed x ∧ i ≠ .skipKeyNotPressed x ∧ i ≠ .awaitKey x) →
    exec i s = .next t → exec i { s with keys := ks } = .next { t with keys := ks }

/-- The collision flag of Draw is the only path from the framebuffer back to the rest of the machine: with another
frame the result differs in the frame, the Render history and Draw's `VF` alone (`45_display.md`, last paragraph). -/
def Obligations.FrameSeenByCollisionFlagOnly : Prop :=
  ∀ (i : Instr) (s t : State) (f : Frame), exec i s = .next t →
    ∃ u, exec i { s with fb := f } = .next u ∧ { u with fb := t.fb, renders := t.renders, v := t.v } = t ∧
      ∀ k, u.reg k = t.reg k ∨ k = 15#4 ∧ ∃ x y n, i = .draw x y n

/-- A parked Engine changes nothing: the step of a jump to itself gives the same state, but that the turn is used up,
where the schedule names one (log 6) (`70_reset_and_hazards.md` section 4, decision D25). -/
def Obligations.ParkedStepChangesNothing : Prop := ∀ s : State, s.Ready → s.Parked → step s = .next s.afterTurn

/-- Every instruction sets `pc` as its class says, unless it faults (`40_execution_engine.md` section 2): the
redirecting ones explicitly, Return to the entry on top of the call stack, Jump and Call to `nnn`, JumpPlusV0 to the
unreduced sum; the skips by 4 exactly when their condition holds, else by 2; AwaitKey by 2 exactly when its key is
pressed, else not; the others by 2. -/
def Obligations.PcAdvancesByClass : Prop :=
  ∀ (i : Instr) (s t : State), s.fault = none → exec i s = .next t → t.fault = none →
    match pcClassOf i with
    | .sequential => t.pc = s.pc + 2
    | .skip => (s.Condition i → t.pc = s.pc + 4) ∧ (¬ s.Condition i → t.pc = s.pc + 2)
    | .wait => (s.Condition i → t.pc = s.pc + 2) ∧ (¬ s.Condition i → t.pc = s.pc)
    | .redirect => s.RedirectsTo t.pc i
end

