-- ==== Sys2Proof/Laws/Decode.lean ====
section
/-! SUPPORT. The word layouts: the fields of a laid-out word, and its fixed bits under the masks of R92. -/

namespace Sys2Proof

/-- `hi` is the high part of `hi ++ lo`. -/
theorem extract_append_high {m n k : Nat} (hi : BitVec m) (lo : BitVec n) (j : Nat) (h : k = n + j) (l : Nat) :
    (hi ++ lo).extractLsb' k l = hi.extractLsb' j l := by
  subst h
  ext i hi'
  simp [BitVec.getLsbD_append, show ¬ n + j + i < n by omega, show n + j + i - n = j + i by omega]

/-- The low part of `hi ++ lo`, inside `lo`. -/
theorem extract_append_low {m n : Nat} (hi : BitVec m) (lo : BitVec n) (j l : Nat) (h : j + l ≤ n) :
    (hi ++ lo).extractLsb' j l = lo.extractLsb' j l := by
  ext i hi'
  simp [BitVec.getLsbD_append, show j + i < n by omega]

theorem extract_all {n : Nat} (b : BitVec n) : b.extractLsb' 0 n = b := by
  ext i hi; simp

/-! ### The bits of a laid-out word -/

theorem getLsbD_wordA (a : Nibble) (b : Addr) (k : Nat) :
    (wordA a b).getLsbD k = if k < 12 then b.getLsbD k else a.getLsbD (k - 12) :=
  (BitVec.getLsbD_append ..).trans (by cases h : decide (k < 12) <;> simp_all)

theorem getLsbD_wordXK (a x : Nibble) (b : Byte) (k : Nat) :
    (wordXK a x b).getLsbD k =
      if k < 8 then b.getLsbD k else if k < 12 then x.getLsbD (k - 8) else a.getLsbD (k - 12) :=
  (BitVec.getLsbD_append (x := a ++ x) (y := b)).trans (by
    rw [BitVec.getLsbD_append]
    by_cases h : k < 8
    · simp [h]
    · by_cases h' : k < 12
      · simp [h, h', show k - 8 < 4 by omega]
      · simp [h, h', show ¬ k - 8 < 4 by omega, show k - 8 - 4 = k - 12 by omega])

theorem getLsbD_wordOfBytes (a b : Byte) (k : Nat) :
    (wordOfBytes a b).getLsbD k = if k < 8 then b.getLsbD k else a.getLsbD (k - 8) :=
  (BitVec.getLsbD_append ..).trans (by cases h : decide (k < 8) <;> simp_all)

/-- The low byte of a word in the formats `XYN` and `XY` is `y :: n` (R8). -/
theorem wordXYN_eq (a x y n : Nibble) : wordXYN a x y n = wordXK a x (y ++ n) :=
  (BitVec.append_assoc (x₁ := a ++ x) (x₂ := y) (x₃ := n)).trans rfl

/-! ### The fields of a laid-out word -/

@[simp] theorem fieldN1_wordA (a : Nibble) (b : Addr) : fieldN1 (wordA a b) = a :=
  (extract_append_high a b 0 rfl 4).trans (extract_all a)

@[simp] theorem fieldNNN_wordA (a : Nibble) (b : Addr) : fieldNNN (wordA a b) = b :=
  (extract_append_low a b 0 12 (by omega)).trans (extract_all b)

@[simp] theorem fieldN1_wordXK (a x : Nibble) (b : Byte) : fieldN1 (wordXK a x b) = a :=
  (extract_append_high (a ++ x) b 4 rfl 4).trans
    ((extract_append_high a x 0 rfl 4).trans (extract_all a))

@[simp] theorem fieldX_wordXK (a x : Nibble) (b : Byte) : fieldX (wordXK a x b) = x :=
  (extract_append_high (a ++ x) b 0 rfl 4).trans
    ((extract_append_low a x 0 4 (by omega)).trans (extract_all x))

@[simp] theorem fieldNN_wordXK (a x : Nibble) (b : Byte) : fieldNN (wordXK a x b) = b :=
  (extract_append_low (a ++ x) b 0 8 (by omega)).trans (extract_all b)

@[simp] theorem fieldN1_wordXYN (a x y n : Nibble) : fieldN1 (wordXYN a x y n) = a :=
  (extract_append_high (a ++ x ++ y) n 8 rfl 4).trans
    ((extract_append_high (a ++ x) y 4 rfl 4).trans
      ((extract_append_high a x 0 rfl 4).trans (extract_all a)))

@[simp] theorem fieldX_wordXYN (a x y n : Nibble) : fieldX (wordXYN a x y n) = x :=
  (extract_append_high (a ++ x ++ y) n 4 rfl 4).trans
    ((extract_append_high (a ++ x) y 0 rfl 4).trans
      ((extract_append_low a x 0 4 (by omega)).trans (extract_all x)))

@[simp] theorem fieldY_wordXYN (a x y n : Nibble) : fieldY (wordXYN a x y n) = y :=
  (extract_append_high (a ++ x ++ y) n 0 rfl 4).trans
    ((extract_append_low (a ++ x) y 0 4 (by omega)).trans (extract_all y))

@[simp] theorem fieldN_wordXYN (a x y n : Nibble) : fieldN (wordXYN a x y n) = n :=
  (extract_append_low (a ++ x ++ y) n 0 4 (by omega)).trans (extract_all n)

/-- The high byte of the two bytes of a word is the first (R68). -/
@[simp] theorem highByte_wordOfBytes (h l : Byte) : highByte (wordOfBytes h l) = h :=
  (extract_append_high h l 0 rfl 8).trans (extract_all h)

@[simp] theorem lowByte_wordOfBytes (h l : Byte) : lowByte (wordOfBytes h l) = l :=
  (extract_append_low h l 0 8 (by omega)).trans (extract_all l)

/-- A word is put together again from its two bytes (R66). -/
@[simp] theorem wordOfBytes_bytes (w : Word) : wordOfBytes (highByte w) (lowByte w) = w := by
  apply BitVec.eq_of_getLsbD_eq
  intro k hk
  rw [getLsbD_wordOfBytes]
  by_cases h : k < 8
  · simp [lowByte, h]
  · simp [highByte, h, show 8 + (k - 8) = k by omega, show k - 8 < 8 by omega]

/-! ### Fixed bits -/

@[simp] theorem wordA_and_mask (a : Nibble) (b : Addr) : wordA a b &&& 0xF000#16 = wordA a 0 := by
  apply BitVec.eq_of_getLsbD_eq
  intro k hk
  rw [BitVec.getLsbD_and, getLsbD_wordA, getLsbD_wordA]
  interval_cases k <;> simp

@[simp] theorem wordXK_and_mask (a x : Nibble) (b : Byte) : wordXK a x b &&& 0xF000#16 = wordXK a 0 0 := by
  apply BitVec.eq_of_getLsbD_eq
  intro k hk
  rw [BitVec.getLsbD_and, getLsbD_wordXK, getLsbD_wordXK]
  interval_cases k <;> simp

@[simp] theorem wordXK_and_code (a x : Nibble) (b : Byte) : wordXK a x b &&& 0xF0FF#16 = wordXK a 0 b := by
  apply BitVec.eq_of_getLsbD_eq
  intro k hk
  rw [BitVec.getLsbD_and, getLsbD_wordXK, getLsbD_wordXK]
  interval_cases k <;> simp

@[simp] theorem wordXYN_and_mask (a x y n : Nibble) : wordXYN a x y n &&& 0xF000#16 = wordXYN a 0 0 0 := by
  rw [wordXYN_eq, wordXYN_eq]; exact wordXK_and_mask a x _

@[simp] theorem wordXYN_and_sub (a x y n : Nibble) : wordXYN a x y n &&& 0xF00F#16 = wordXYN a 0 0 n := by
  rw [wordXYN_eq, wordXYN_eq]
  apply BitVec.eq_of_getLsbD_eq
  intro k hk
  rw [BitVec.getLsbD_and, getLsbD_wordXK, getLsbD_wordXK, BitVec.getLsbD_append, BitVec.getLsbD_append]
  interval_cases k <;> simp

end Sys2Proof
end

