-- ==== Sys2Proof/Laws/Memory.lean ====
section
/-! SUPPORT. Memory: a write changes one cell and keeps the canonical form (`20_memory.md` R67). -/

namespace Sys2Proof.Machine

/-- Reading another address sees nothing of a `put`. -/
theorem Memory.read_put_ne (m : Memory) {a c : Nat} (b : Byte) (h : c ≠ a) :
    (Memory.put m a b).read c = m.read c := by
  induction m with
  | nil => by_cases hb : b = initByte a <;> simp [Memory.put, Memory.read, hb, h.symm]
  | cons e m ih =>
    obtain ⟨k, d⟩ := e
    rcases Nat.lt_trichotomy k a with hk | rfl | hk
    · simp [Memory.put, hk, Memory.read, ih]
    · by_cases hb : b = initByte k <;> simp [Memory.put, Memory.read, hb, h.symm]
    · have h1 : ¬ k < a := by omega
      have h2 : k ≠ a := by omega
      by_cases hb : b = initByte a <;> simp [Memory.put, Memory.read, hb, h1, h2, h.symm]

/-- An address below a canonical list's lower bound is unlisted. -/
theorem Memory.read_of_lt {m : Memory} {lo a : Nat} (hm : Memory.wfFrom lo m = true) (h : a < lo) :
    m.read a = initByte a := by
  induction m generalizing lo with
  | nil => rfl
  | cons e m ih =>
    obtain ⟨k, d⟩ := e
    simp only [Memory.wfFrom, Bool.and_eq_true, decide_eq_true_eq] at hm
    have hk : k ≠ a := by omega
    simp [Memory.read, hk, ih hm.2 (by omega)]

/-- Reading the address written gives the byte written. -/
theorem Memory.read_put_self {m : Memory} {lo : Nat} (hm : Memory.wfFrom lo m = true) (a : Nat) (b : Byte) :
    (Memory.put m a b).read a = b := by
  induction m generalizing lo with
  | nil => by_cases hb : b = initByte a <;> simp [Memory.put, Memory.read, hb]
  | cons e m ih =>
    obtain ⟨k, d⟩ := e
    simp only [Memory.wfFrom, Bool.and_eq_true, decide_eq_true_eq] at hm
    rcases Nat.lt_trichotomy k a with hk | rfl | hk
    · simp [Memory.put, hk, Memory.read, ih hm.2, Nat.ne_of_lt hk]
    · by_cases hb : b = initByte k
      · simp [Memory.put, hb, Memory.read_of_lt hm.2 (Nat.lt_succ_self k)]
      · simp [Memory.put, Memory.read, hb]
    · have h1 : ¬ k < a := by omega
      have h2 : k ≠ a := by omega
      by_cases hb : b = initByte a
      · simp [Memory.put, Memory.read, hb, h1, h2, Memory.read_of_lt hm.2 (by omega : a < k + 1)]
      · simp [Memory.put, Memory.read, hb, h1, h2]

/-- A `put` inside the bounds keeps the canonical form. -/
theorem Memory.wfFrom_put {m : Memory} {lo a : Nat} (hm : Memory.wfFrom lo m = true) (b : Byte)
    (hlo : lo ≤ a) (ha : a < Config.memSize) : Memory.wfFrom lo (Memory.put m a b) = true := by
  induction m generalizing lo with
  | nil => by_cases hb : b = initByte a <;> simp [Memory.put, Memory.wfFrom, hb, hlo, ha]
  | cons e m ih =>
    obtain ⟨k, d⟩ := e
    simp only [Memory.wfFrom, Bool.and_eq_true, decide_eq_true_eq] at hm
    obtain ⟨⟨⟨h1, h2⟩, h3⟩, h4⟩ := hm
    rcases Nat.lt_trichotomy k a with hk | rfl | hk
    · simp [Memory.put, hk, Memory.wfFrom, h1, h2, h3, ih h4 (by omega)]
    · by_cases hb : b = initByte k
      · simp only [Memory.put, Nat.lt_irrefl, if_false, if_true, hb]
        clear ih
        cases m with
        | nil => rfl
        | cons e m =>
          obtain ⟨j, c⟩ := e
          simp only [Memory.wfFrom, Bool.and_eq_true, decide_eq_true_eq] at h4 ⊢
          exact ⟨⟨⟨by omega, h4.1.1.2⟩, h4.1.2⟩, h4.2⟩
      · simp [Memory.put, Memory.wfFrom, hb, h1, h2, h4]
    · have k1 : ¬ k < a := by omega
      have k2 : k ≠ a := by omega
      by_cases hb : b = initByte a
      · simp [Memory.put, Memory.wfFrom, hb, k1, k2, h1, h2, h3, h4]
      · have : a + 1 ≤ k := hk
        simp [Memory.put, Memory.wfFrom, hb, k1, k2, h2, h3, h4, hlo, ha, this]

/-- Every write keeps the canonical form. -/
theorem Memory.wf_write {m : Memory} (hm : m.wf = true) (a : Nat) (b : Byte) : (m.write a b).wf = true := by
  unfold Memory.write
  split
  · exact Memory.wfFrom_put hm b (Nat.zero_le a) ‹_›
  · exact hm

theorem Memory.read_write_self {m : Memory} (hm : m.wf = true) {a : Nat} (ha : a < Config.memSize) (b : Byte) :
    (m.write a b).read a = b := by
  simp [Memory.write, ha, Memory.read_put_self hm]

theorem Memory.read_write_ne (m : Memory) {a c : Nat} (b : Byte) (h : c ≠ a) :
    (m.write a b).read c = m.read c := by
  unfold Memory.write
  split
  · exact Memory.read_put_ne m b h
  · rfl

/-- Every block of writes keeps the canonical form. -/
theorem Memory.wf_writeList {m : Memory} (hm : m.wf = true) (a : Nat) (bs : List Byte) :
    (m.writeList a bs).wf = true := by
  induction bs generalizing m a with
  | nil => exact hm
  | cons b bs ih => exact ih (Memory.wf_write hm a b) (a + 1)

/-- A block of writes leaves every address outside the block alone. -/
theorem Memory.read_writeList_outside (m : Memory) (a : Nat) (bs : List Byte) {c : Nat}
    (h : c < a ∨ a + bs.length ≤ c) : (m.writeList a bs).read c = m.read c := by
  induction bs generalizing m a with
  | nil => rfl
  | cons b bs ih =>
    simp only [List.length_cons] at h
    rw [Memory.writeList, ih _ _ (by omega), Memory.read_write_ne m b (by omega)]

/-- A block of writes inside memory leaves its bytes, in ascending order. -/
theorem Memory.read_writeList_inside {m : Memory} (hm : m.wf = true) (a : Nat) (bs : List Byte)
    (hb : a + bs.length ≤ Config.memSize) (k : Nat) (hk : k < bs.length) :
    (m.writeList a bs).read (a + k) = bs[k] := by
  induction bs generalizing m a k with
  | nil => simp at hk
  | cons b bs ih =>
    simp only [List.length_cons] at hb hk
    cases k with
    | zero =>
      rw [Memory.writeList, Memory.read_writeList_outside _ _ _ (by omega)]
      exact Memory.read_write_self hm (by omega) b
    | succ k =>
      have e : a + (k + 1) = a + 1 + k := by omega
      simpa [Memory.writeList, e] using ih (Memory.wf_write hm a b) (a + 1) (by omega) k (by omega)

/-- Canonical memories that read alike in every cell are equal. -/
theorem Memory.eq_of_read {lo : Nat} {m m' : Memory} (h : Memory.wfFrom lo m = true)
    (h' : Memory.wfFrom lo m' = true) (e : ∀ a, m.read a = m'.read a) : m = m' := by
  induction m generalizing lo m' with
  | nil =>
    cases m' with
    | nil => rfl
    | cons p m' =>
      obtain ⟨k, d⟩ := p
      simp only [Memory.wfFrom, Bool.and_eq_true, decide_eq_true_eq] at h'
      exact absurd (by simpa [Memory.read] using (e k).symm) h'.1.2
  | cons p m ih =>
    obtain ⟨k, d⟩ := p
    simp only [Memory.wfFrom, Bool.and_eq_true, decide_eq_true_eq] at h
    cases m' with
    | nil => exact absurd (by simpa [Memory.read] using e k) h.1.2
    | cons q m' =>
      obtain ⟨j, c⟩ := q
      simp only [Memory.wfFrom, Bool.and_eq_true, decide_eq_true_eq] at h'
      have hkj : k = j := by
        rcases Nat.lt_trichotomy k j with hk | hk | hk
        · exact absurd (by simpa [Memory.read, Nat.ne_of_gt hk,
            Memory.read_of_lt h'.2 (by omega : k < j + 1)] using e k) h.1.2
        · exact hk
        · exact absurd (by simpa [Memory.read, Nat.ne_of_gt hk,
            Memory.read_of_lt h.2 (by omega : j < k + 1)] using (e j).symm) h'.1.2
      subst hkj
      have hd : d = c := by simpa [Memory.read] using e k
      subst hd
      have rest : m = m' := ih h.2 h'.2 fun a => by
        by_cases ha : k = a
        · subst ha
          rw [Memory.read_of_lt h.2 (by omega), Memory.read_of_lt h'.2 (by omega)]
        · simpa [Memory.read, ha] using e a
      rw [rest]

/-- The memory after reset is canonical. -/
theorem Memory.wf_reset : Memory.wf State.reset.mem = true := rfl

/-- The font lies below the ROM (`70_reset_and_hazards.md` R254). -/
theorem font_below_rom : fontBase + font.length ≤ Config.romBase := by decide

end Sys2Proof.Machine
end

