-- ==== Sys2Proof/Laws/State.lean ====
section
/-! SUPPORT. What each update leaves in each field of the state: one lemma per field per update, so that no later
proof unfolds a record update. -/

namespace Sys2Proof.Machine

variable (s : State)


/-! ### setMem -/

@[simp] theorem State.setMem_mem (m : Memory) : (s.setMem m).mem = m := rfl
@[simp] theorem State.setMem_v (m : Memory) : (s.setMem m).v = s.v := rfl
@[simp] theorem State.setMem_i (m : Memory) : (s.setMem m).i = s.i := rfl
@[simp] theorem State.setMem_pc (m : Memory) : (s.setMem m).pc = s.pc := rfl
@[simp] theorem State.setMem_stack (m : Memory) : (s.setMem m).stack = s.stack := rfl
@[simp] theorem State.setMem_sp (m : Memory) : (s.setMem m).sp = s.sp := rfl
@[simp] theorem State.setMem_dt (m : Memory) : (s.setMem m).dt = s.dt := rfl
@[simp] theorem State.setMem_st (m : Memory) : (s.setMem m).st = s.st := rfl
@[simp] theorem State.setMem_fb (m : Memory) : (s.setMem m).fb = s.fb := rfl
@[simp] theorem State.setMem_keys (m : Memory) : (s.setMem m).keys = s.keys := rfl
@[simp] theorem State.setMem_run (m : Memory) : (s.setMem m).run = s.run := rfl
@[simp] theorem State.setMem_fault (m : Memory) : (s.setMem m).fault = s.fault := rfl
@[simp] theorem State.setMem_draws (m : Memory) : (s.setMem m).draws = s.draws := rfl
@[simp] theorem State.setMem_renders (m : Memory) : (s.setMem m).renders = s.renders := rfl
@[simp] theorem State.setMem_schedule (m : Memory) : (s.setMem m).schedule = s.schedule := rfl

/-! ### setV -/

@[simp] theorem State.setV_mem (w : Vector Byte 16) : (s.setV w).mem = s.mem := rfl
@[simp] theorem State.setV_v (w : Vector Byte 16) : (s.setV w).v = w := rfl
@[simp] theorem State.setV_i (w : Vector Byte 16) : (s.setV w).i = s.i := rfl
@[simp] theorem State.setV_pc (w : Vector Byte 16) : (s.setV w).pc = s.pc := rfl
@[simp] theorem State.setV_stack (w : Vector Byte 16) : (s.setV w).stack = s.stack := rfl
@[simp] theorem State.setV_sp (w : Vector Byte 16) : (s.setV w).sp = s.sp := rfl
@[simp] theorem State.setV_dt (w : Vector Byte 16) : (s.setV w).dt = s.dt := rfl
@[simp] theorem State.setV_st (w : Vector Byte 16) : (s.setV w).st = s.st := rfl
@[simp] theorem State.setV_fb (w : Vector Byte 16) : (s.setV w).fb = s.fb := rfl
@[simp] theorem State.setV_keys (w : Vector Byte 16) : (s.setV w).keys = s.keys := rfl
@[simp] theorem State.setV_run (w : Vector Byte 16) : (s.setV w).run = s.run := rfl
@[simp] theorem State.setV_fault (w : Vector Byte 16) : (s.setV w).fault = s.fault := rfl
@[simp] theorem State.setV_draws (w : Vector Byte 16) : (s.setV w).draws = s.draws := rfl
@[simp] theorem State.setV_renders (w : Vector Byte 16) : (s.setV w).renders = s.renders := rfl
@[simp] theorem State.setV_schedule (w : Vector Byte 16) : (s.setV w).schedule = s.schedule := rfl

/-! ### setReg -/

@[simp] theorem State.setReg_mem (k : Nibble) (b : Byte) : (s.setReg k b).mem = s.mem := rfl
@[simp] theorem State.setReg_v (k : Nibble) (b : Byte) : (s.setReg k b).v = s.v.set k.toNat b k.isLt := rfl
@[simp] theorem State.setReg_i (k : Nibble) (b : Byte) : (s.setReg k b).i = s.i := rfl
@[simp] theorem State.setReg_pc (k : Nibble) (b : Byte) : (s.setReg k b).pc = s.pc := rfl
@[simp] theorem State.setReg_stack (k : Nibble) (b : Byte) : (s.setReg k b).stack = s.stack := rfl
@[simp] theorem State.setReg_sp (k : Nibble) (b : Byte) : (s.setReg k b).sp = s.sp := rfl
@[simp] theorem State.setReg_dt (k : Nibble) (b : Byte) : (s.setReg k b).dt = s.dt := rfl
@[simp] theorem State.setReg_st (k : Nibble) (b : Byte) : (s.setReg k b).st = s.st := rfl
@[simp] theorem State.setReg_fb (k : Nibble) (b : Byte) : (s.setReg k b).fb = s.fb := rfl
@[simp] theorem State.setReg_keys (k : Nibble) (b : Byte) : (s.setReg k b).keys = s.keys := rfl
@[simp] theorem State.setReg_run (k : Nibble) (b : Byte) : (s.setReg k b).run = s.run := rfl
@[simp] theorem State.setReg_fault (k : Nibble) (b : Byte) : (s.setReg k b).fault = s.fault := rfl
@[simp] theorem State.setReg_draws (k : Nibble) (b : Byte) : (s.setReg k b).draws = s.draws := rfl
@[simp] theorem State.setReg_renders (k : Nibble) (b : Byte) : (s.setReg k b).renders = s.renders := rfl
@[simp] theorem State.setReg_schedule (k : Nibble) (b : Byte) : (s.setReg k b).schedule = s.schedule := rfl

/-! ### setVF -/

@[simp] theorem State.setVF_mem (c : Bool) : (s.setVF c).mem = s.mem := rfl
@[simp] theorem State.setVF_v (c : Bool) : (s.setVF c).v = s.v.set 15 (if c then 1 else 0) (by decide) := rfl
@[simp] theorem State.setVF_i (c : Bool) : (s.setVF c).i = s.i := rfl
@[simp] theorem State.setVF_pc (c : Bool) : (s.setVF c).pc = s.pc := rfl
@[simp] theorem State.setVF_stack (c : Bool) : (s.setVF c).stack = s.stack := rfl
@[simp] theorem State.setVF_sp (c : Bool) : (s.setVF c).sp = s.sp := rfl
@[simp] theorem State.setVF_dt (c : Bool) : (s.setVF c).dt = s.dt := rfl
@[simp] theorem State.setVF_st (c : Bool) : (s.setVF c).st = s.st := rfl
@[simp] theorem State.setVF_fb (c : Bool) : (s.setVF c).fb = s.fb := rfl
@[simp] theorem State.setVF_keys (c : Bool) : (s.setVF c).keys = s.keys := rfl
@[simp] theorem State.setVF_run (c : Bool) : (s.setVF c).run = s.run := rfl
@[simp] theorem State.setVF_fault (c : Bool) : (s.setVF c).fault = s.fault := rfl
@[simp] theorem State.setVF_draws (c : Bool) : (s.setVF c).draws = s.draws := rfl
@[simp] theorem State.setVF_renders (c : Bool) : (s.setVF c).renders = s.renders := rfl
@[simp] theorem State.setVF_schedule (c : Bool) : (s.setVF c).schedule = s.schedule := rfl

/-! ### setI -/

@[simp] theorem State.setI_mem (w : Word) : (s.setI w).mem = s.mem := rfl
@[simp] theorem State.setI_v (w : Word) : (s.setI w).v = s.v := rfl
@[simp] theorem State.setI_i (w : Word) : (s.setI w).i = w := rfl
@[simp] theorem State.setI_pc (w : Word) : (s.setI w).pc = s.pc := rfl
@[simp] theorem State.setI_stack (w : Word) : (s.setI w).stack = s.stack := rfl
@[simp] theorem State.setI_sp (w : Word) : (s.setI w).sp = s.sp := rfl
@[simp] theorem State.setI_dt (w : Word) : (s.setI w).dt = s.dt := rfl
@[simp] theorem State.setI_st (w : Word) : (s.setI w).st = s.st := rfl
@[simp] theorem State.setI_fb (w : Word) : (s.setI w).fb = s.fb := rfl
@[simp] theorem State.setI_keys (w : Word) : (s.setI w).keys = s.keys := rfl
@[simp] theorem State.setI_run (w : Word) : (s.setI w).run = s.run := rfl
@[simp] theorem State.setI_fault (w : Word) : (s.setI w).fault = s.fault := rfl
@[simp] theorem State.setI_draws (w : Word) : (s.setI w).draws = s.draws := rfl
@[simp] theorem State.setI_renders (w : Word) : (s.setI w).renders = s.renders := rfl
@[simp] theorem State.setI_schedule (w : Word) : (s.setI w).schedule = s.schedule := rfl

/-! ### setPc -/

@[simp] theorem State.setPc_mem (w : Word) : (s.setPc w).mem = s.mem := rfl
@[simp] theorem State.setPc_v (w : Word) : (s.setPc w).v = s.v := rfl
@[simp] theorem State.setPc_i (w : Word) : (s.setPc w).i = s.i := rfl
@[simp] theorem State.setPc_pc (w : Word) : (s.setPc w).pc = w := rfl
@[simp] theorem State.setPc_stack (w : Word) : (s.setPc w).stack = s.stack := rfl
@[simp] theorem State.setPc_sp (w : Word) : (s.setPc w).sp = s.sp := rfl
@[simp] theorem State.setPc_dt (w : Word) : (s.setPc w).dt = s.dt := rfl
@[simp] theorem State.setPc_st (w : Word) : (s.setPc w).st = s.st := rfl
@[simp] theorem State.setPc_fb (w : Word) : (s.setPc w).fb = s.fb := rfl
@[simp] theorem State.setPc_keys (w : Word) : (s.setPc w).keys = s.keys := rfl
@[simp] theorem State.setPc_run (w : Word) : (s.setPc w).run = s.run := rfl
@[simp] theorem State.setPc_fault (w : Word) : (s.setPc w).fault = s.fault := rfl
@[simp] theorem State.setPc_draws (w : Word) : (s.setPc w).draws = s.draws := rfl
@[simp] theorem State.setPc_renders (w : Word) : (s.setPc w).renders = s.renders := rfl
@[simp] theorem State.setPc_schedule (w : Word) : (s.setPc w).schedule = s.schedule := rfl

/-! ### advance -/

@[simp] theorem State.advance_mem : (s.advance).mem = s.mem := rfl
@[simp] theorem State.advance_v : (s.advance).v = s.v := rfl
@[simp] theorem State.advance_i : (s.advance).i = s.i := rfl
@[simp] theorem State.advance_pc : (s.advance).pc = s.pc + 2 := rfl
@[simp] theorem State.advance_stack : (s.advance).stack = s.stack := rfl
@[simp] theorem State.advance_sp : (s.advance).sp = s.sp := rfl
@[simp] theorem State.advance_dt : (s.advance).dt = s.dt := rfl
@[simp] theorem State.advance_st : (s.advance).st = s.st := rfl
@[simp] theorem State.advance_fb : (s.advance).fb = s.fb := rfl
@[simp] theorem State.advance_keys : (s.advance).keys = s.keys := rfl
@[simp] theorem State.advance_run : (s.advance).run = s.run := rfl
@[simp] theorem State.advance_fault : (s.advance).fault = s.fault := rfl
@[simp] theorem State.advance_draws : (s.advance).draws = s.draws := rfl
@[simp] theorem State.advance_renders : (s.advance).renders = s.renders := rfl
@[simp] theorem State.advance_schedule : (s.advance).schedule = s.schedule := rfl

/-! ### skipIf -/

@[simp] theorem State.skipIf_mem (c : Bool) : (s.skipIf c).mem = s.mem := rfl
@[simp] theorem State.skipIf_v (c : Bool) : (s.skipIf c).v = s.v := rfl
@[simp] theorem State.skipIf_i (c : Bool) : (s.skipIf c).i = s.i := rfl
@[simp] theorem State.skipIf_pc (c : Bool) : (s.skipIf c).pc = if c then s.pc + 4 else s.pc + 2 := rfl
@[simp] theorem State.skipIf_stack (c : Bool) : (s.skipIf c).stack = s.stack := rfl
@[simp] theorem State.skipIf_sp (c : Bool) : (s.skipIf c).sp = s.sp := rfl
@[simp] theorem State.skipIf_dt (c : Bool) : (s.skipIf c).dt = s.dt := rfl
@[simp] theorem State.skipIf_st (c : Bool) : (s.skipIf c).st = s.st := rfl
@[simp] theorem State.skipIf_fb (c : Bool) : (s.skipIf c).fb = s.fb := rfl
@[simp] theorem State.skipIf_keys (c : Bool) : (s.skipIf c).keys = s.keys := rfl
@[simp] theorem State.skipIf_run (c : Bool) : (s.skipIf c).run = s.run := rfl
@[simp] theorem State.skipIf_fault (c : Bool) : (s.skipIf c).fault = s.fault := rfl
@[simp] theorem State.skipIf_draws (c : Bool) : (s.skipIf c).draws = s.draws := rfl
@[simp] theorem State.skipIf_renders (c : Bool) : (s.skipIf c).renders = s.renders := rfl
@[simp] theorem State.skipIf_schedule (c : Bool) : (s.skipIf c).schedule = s.schedule := rfl

/-! ### setDT -/

@[simp] theorem State.setDT_mem (b : Byte) : (s.setDT b).mem = s.mem := rfl
@[simp] theorem State.setDT_v (b : Byte) : (s.setDT b).v = s.v := rfl
@[simp] theorem State.setDT_i (b : Byte) : (s.setDT b).i = s.i := rfl
@[simp] theorem State.setDT_pc (b : Byte) : (s.setDT b).pc = s.pc := rfl
@[simp] theorem State.setDT_stack (b : Byte) : (s.setDT b).stack = s.stack := rfl
@[simp] theorem State.setDT_sp (b : Byte) : (s.setDT b).sp = s.sp := rfl
@[simp] theorem State.setDT_dt (b : Byte) : (s.setDT b).dt = b := rfl
@[simp] theorem State.setDT_st (b : Byte) : (s.setDT b).st = s.st := rfl
@[simp] theorem State.setDT_fb (b : Byte) : (s.setDT b).fb = s.fb := rfl
@[simp] theorem State.setDT_keys (b : Byte) : (s.setDT b).keys = s.keys := rfl
@[simp] theorem State.setDT_run (b : Byte) : (s.setDT b).run = s.run := rfl
@[simp] theorem State.setDT_fault (b : Byte) : (s.setDT b).fault = s.fault := rfl
@[simp] theorem State.setDT_draws (b : Byte) : (s.setDT b).draws = s.draws := rfl
@[simp] theorem State.setDT_renders (b : Byte) : (s.setDT b).renders = s.renders := rfl
@[simp] theorem State.setDT_schedule (b : Byte) : (s.setDT b).schedule = s.schedule := rfl

/-! ### setST -/

@[simp] theorem State.setST_mem (b : Byte) : (s.setST b).mem = s.mem := rfl
@[simp] theorem State.setST_v (b : Byte) : (s.setST b).v = s.v := rfl
@[simp] theorem State.setST_i (b : Byte) : (s.setST b).i = s.i := rfl
@[simp] theorem State.setST_pc (b : Byte) : (s.setST b).pc = s.pc := rfl
@[simp] theorem State.setST_stack (b : Byte) : (s.setST b).stack = s.stack := rfl
@[simp] theorem State.setST_sp (b : Byte) : (s.setST b).sp = s.sp := rfl
@[simp] theorem State.setST_dt (b : Byte) : (s.setST b).dt = s.dt := rfl
@[simp] theorem State.setST_st (b : Byte) : (s.setST b).st = b := rfl
@[simp] theorem State.setST_fb (b : Byte) : (s.setST b).fb = s.fb := rfl
@[simp] theorem State.setST_keys (b : Byte) : (s.setST b).keys = s.keys := rfl
@[simp] theorem State.setST_run (b : Byte) : (s.setST b).run = s.run := rfl
@[simp] theorem State.setST_fault (b : Byte) : (s.setST b).fault = s.fault := rfl
@[simp] theorem State.setST_draws (b : Byte) : (s.setST b).draws = s.draws := rfl
@[simp] theorem State.setST_renders (b : Byte) : (s.setST b).renders = s.renders := rfl
@[simp] theorem State.setST_schedule (b : Byte) : (s.setST b).schedule = s.schedule := rfl

/-! ### setFB -/

@[simp] theorem State.setFB_mem (f : Frame) : (s.setFB f).mem = s.mem := rfl
@[simp] theorem State.setFB_v (f : Frame) : (s.setFB f).v = s.v := rfl
@[simp] theorem State.setFB_i (f : Frame) : (s.setFB f).i = s.i := rfl
@[simp] theorem State.setFB_pc (f : Frame) : (s.setFB f).pc = s.pc := rfl
@[simp] theorem State.setFB_stack (f : Frame) : (s.setFB f).stack = s.stack := rfl
@[simp] theorem State.setFB_sp (f : Frame) : (s.setFB f).sp = s.sp := rfl
@[simp] theorem State.setFB_dt (f : Frame) : (s.setFB f).dt = s.dt := rfl
@[simp] theorem State.setFB_st (f : Frame) : (s.setFB f).st = s.st := rfl
@[simp] theorem State.setFB_fb (f : Frame) : (s.setFB f).fb = f := rfl
@[simp] theorem State.setFB_keys (f : Frame) : (s.setFB f).keys = s.keys := rfl
@[simp] theorem State.setFB_run (f : Frame) : (s.setFB f).run = s.run := rfl
@[simp] theorem State.setFB_fault (f : Frame) : (s.setFB f).fault = s.fault := rfl
@[simp] theorem State.setFB_draws (f : Frame) : (s.setFB f).draws = s.draws := rfl
@[simp] theorem State.setFB_renders (f : Frame) : (s.setFB f).renders = s.renders := rfl
@[simp] theorem State.setFB_schedule (f : Frame) : (s.setFB f).schedule = s.schedule := rfl

/-! ### emitRender -/

@[simp] theorem State.emitRender_mem : (s.emitRender).mem = s.mem := rfl
@[simp] theorem State.emitRender_v : (s.emitRender).v = s.v := rfl
@[simp] theorem State.emitRender_i : (s.emitRender).i = s.i := rfl
@[simp] theorem State.emitRender_pc : (s.emitRender).pc = s.pc := rfl
@[simp] theorem State.emitRender_stack : (s.emitRender).stack = s.stack := rfl
@[simp] theorem State.emitRender_sp : (s.emitRender).sp = s.sp := rfl
@[simp] theorem State.emitRender_dt : (s.emitRender).dt = s.dt := rfl
@[simp] theorem State.emitRender_st : (s.emitRender).st = s.st := rfl
@[simp] theorem State.emitRender_fb : (s.emitRender).fb = s.fb := rfl
@[simp] theorem State.emitRender_keys : (s.emitRender).keys = s.keys := rfl
@[simp] theorem State.emitRender_run : (s.emitRender).run = s.run := rfl
@[simp] theorem State.emitRender_fault : (s.emitRender).fault = s.fault := rfl
@[simp] theorem State.emitRender_draws : (s.emitRender).draws = s.draws := rfl
@[simp] theorem State.emitRender_renders : (s.emitRender).renders = ⟨s.fb, Config.fbWidth, Config.fbHeight⟩ :: s.renders := rfl
@[simp] theorem State.emitRender_schedule : (s.emitRender).schedule = s.schedule := rfl

/-! ### raise -/

@[simp] theorem State.raise_mem (f : FaultKind) : (s.raise f).mem = s.mem := rfl
@[simp] theorem State.raise_v (f : FaultKind) : (s.raise f).v = s.v := rfl
@[simp] theorem State.raise_i (f : FaultKind) : (s.raise f).i = s.i := rfl
@[simp] theorem State.raise_pc (f : FaultKind) : (s.raise f).pc = s.pc := rfl
@[simp] theorem State.raise_stack (f : FaultKind) : (s.raise f).stack = s.stack := rfl
@[simp] theorem State.raise_sp (f : FaultKind) : (s.raise f).sp = s.sp := rfl
@[simp] theorem State.raise_dt (f : FaultKind) : (s.raise f).dt = s.dt := rfl
@[simp] theorem State.raise_st (f : FaultKind) : (s.raise f).st = s.st := rfl
@[simp] theorem State.raise_fb (f : FaultKind) : (s.raise f).fb = s.fb := rfl
@[simp] theorem State.raise_keys (f : FaultKind) : (s.raise f).keys = s.keys := rfl
@[simp] theorem State.raise_run (f : FaultKind) : (s.raise f).run = s.run := rfl
@[simp] theorem State.raise_fault (f : FaultKind) : (s.raise f).fault = some f := rfl
@[simp] theorem State.raise_draws (f : FaultKind) : (s.raise f).draws = s.draws := rfl
@[simp] theorem State.raise_renders (f : FaultKind) : (s.raise f).renders = s.renders := rfl
@[simp] theorem State.raise_schedule (f : FaultKind) : (s.raise f).schedule = s.schedule := rfl

/-! ### nextDraw -/

@[simp] theorem State.nextDraw_mem : (s.nextDraw).mem = s.mem := rfl
@[simp] theorem State.nextDraw_v : (s.nextDraw).v = s.v := rfl
@[simp] theorem State.nextDraw_i : (s.nextDraw).i = s.i := rfl
@[simp] theorem State.nextDraw_pc : (s.nextDraw).pc = s.pc := rfl
@[simp] theorem State.nextDraw_stack : (s.nextDraw).stack = s.stack := rfl
@[simp] theorem State.nextDraw_sp : (s.nextDraw).sp = s.sp := rfl
@[simp] theorem State.nextDraw_dt : (s.nextDraw).dt = s.dt := rfl
@[simp] theorem State.nextDraw_st : (s.nextDraw).st = s.st := rfl
@[simp] theorem State.nextDraw_fb : (s.nextDraw).fb = s.fb := rfl
@[simp] theorem State.nextDraw_keys : (s.nextDraw).keys = s.keys := rfl
@[simp] theorem State.nextDraw_run : (s.nextDraw).run = s.run := rfl
@[simp] theorem State.nextDraw_fault : (s.nextDraw).fault = s.fault := rfl
@[simp] theorem State.nextDraw_draws : (s.nextDraw).draws = s.draws + 1 := rfl
@[simp] theorem State.nextDraw_renders : (s.nextDraw).renders = s.renders := rfl
@[simp] theorem State.nextDraw_schedule : (s.nextDraw).schedule = s.schedule := rfl

/-! ### tick -/

@[simp] theorem State.tick_mem : (s.tick).mem = s.mem := rfl
@[simp] theorem State.tick_v : (s.tick).v = s.v := rfl
@[simp] theorem State.tick_i : (s.tick).i = s.i := rfl
@[simp] theorem State.tick_pc : (s.tick).pc = s.pc := rfl
@[simp] theorem State.tick_stack : (s.tick).stack = s.stack := rfl
@[simp] theorem State.tick_sp : (s.tick).sp = s.sp := rfl
@[simp] theorem State.tick_dt : (s.tick).dt = tickDown s.dt := rfl
@[simp] theorem State.tick_st : (s.tick).st = tickDown s.st := rfl
@[simp] theorem State.tick_fb : (s.tick).fb = s.fb := rfl
@[simp] theorem State.tick_keys : (s.tick).keys = s.keys := rfl
@[simp] theorem State.tick_run : (s.tick).run = s.run := rfl
@[simp] theorem State.tick_fault : (s.tick).fault = s.fault := rfl
@[simp] theorem State.tick_draws : (s.tick).draws = s.draws := rfl
@[simp] theorem State.tick_renders : (s.tick).renders = s.renders := rfl
@[simp] theorem State.tick_schedule : (s.tick).schedule = s.schedule := rfl

/-! ### press -/

@[simp] theorem State.press_mem (k : Nibble) : (s.press k).mem = s.mem := rfl
@[simp] theorem State.press_v (k : Nibble) : (s.press k).v = s.v := rfl
@[simp] theorem State.press_i (k : Nibble) : (s.press k).i = s.i := rfl
@[simp] theorem State.press_pc (k : Nibble) : (s.press k).pc = s.pc := rfl
@[simp] theorem State.press_stack (k : Nibble) : (s.press k).stack = s.stack := rfl
@[simp] theorem State.press_sp (k : Nibble) : (s.press k).sp = s.sp := rfl
@[simp] theorem State.press_dt (k : Nibble) : (s.press k).dt = s.dt := rfl
@[simp] theorem State.press_st (k : Nibble) : (s.press k).st = s.st := rfl
@[simp] theorem State.press_fb (k : Nibble) : (s.press k).fb = s.fb := rfl
@[simp] theorem State.press_keys (k : Nibble) : (s.press k).keys = s.keys ||| keyBit k := rfl
@[simp] theorem State.press_run (k : Nibble) : (s.press k).run = s.run := rfl
@[simp] theorem State.press_fault (k : Nibble) : (s.press k).fault = s.fault := rfl
@[simp] theorem State.press_draws (k : Nibble) : (s.press k).draws = s.draws := rfl
@[simp] theorem State.press_renders (k : Nibble) : (s.press k).renders = s.renders := rfl
@[simp] theorem State.press_schedule (k : Nibble) : (s.press k).schedule = s.schedule := rfl

/-! ### release -/

@[simp] theorem State.release_mem (k : Nibble) : (s.release k).mem = s.mem := rfl
@[simp] theorem State.release_v (k : Nibble) : (s.release k).v = s.v := rfl
@[simp] theorem State.release_i (k : Nibble) : (s.release k).i = s.i := rfl
@[simp] theorem State.release_pc (k : Nibble) : (s.release k).pc = s.pc := rfl
@[simp] theorem State.release_stack (k : Nibble) : (s.release k).stack = s.stack := rfl
@[simp] theorem State.release_sp (k : Nibble) : (s.release k).sp = s.sp := rfl
@[simp] theorem State.release_dt (k : Nibble) : (s.release k).dt = s.dt := rfl
@[simp] theorem State.release_st (k : Nibble) : (s.release k).st = s.st := rfl
@[simp] theorem State.release_fb (k : Nibble) : (s.release k).fb = s.fb := rfl
@[simp] theorem State.release_keys (k : Nibble) : (s.release k).keys = s.keys &&& ~~~keyBit k := rfl
@[simp] theorem State.release_run (k : Nibble) : (s.release k).run = s.run := rfl
@[simp] theorem State.release_fault (k : Nibble) : (s.release k).fault = s.fault := rfl
@[simp] theorem State.release_draws (k : Nibble) : (s.release k).draws = s.draws := rfl
@[simp] theorem State.release_renders (k : Nibble) : (s.release k).renders = s.renders := rfl
@[simp] theorem State.release_schedule (k : Nibble) : (s.release k).schedule = s.schedule := rfl

/-! ### setRun -/

@[simp] theorem State.setRun_mem (b : Bool) : (s.setRun b).mem = s.mem := rfl
@[simp] theorem State.setRun_v (b : Bool) : (s.setRun b).v = s.v := rfl
@[simp] theorem State.setRun_i (b : Bool) : (s.setRun b).i = s.i := rfl
@[simp] theorem State.setRun_pc (b : Bool) : (s.setRun b).pc = s.pc := rfl
@[simp] theorem State.setRun_stack (b : Bool) : (s.setRun b).stack = s.stack := rfl
@[simp] theorem State.setRun_sp (b : Bool) : (s.setRun b).sp = s.sp := rfl
@[simp] theorem State.setRun_dt (b : Bool) : (s.setRun b).dt = s.dt := rfl
@[simp] theorem State.setRun_st (b : Bool) : (s.setRun b).st = s.st := rfl
@[simp] theorem State.setRun_fb (b : Bool) : (s.setRun b).fb = s.fb := rfl
@[simp] theorem State.setRun_keys (b : Bool) : (s.setRun b).keys = s.keys := rfl
@[simp] theorem State.setRun_run (b : Bool) : (s.setRun b).run = b := rfl
@[simp] theorem State.setRun_fault (b : Bool) : (s.setRun b).fault = s.fault := rfl
@[simp] theorem State.setRun_draws (b : Bool) : (s.setRun b).draws = s.draws := rfl
@[simp] theorem State.setRun_renders (b : Bool) : (s.setRun b).renders = s.renders := rfl
@[simp] theorem State.setRun_schedule (b : Bool) : (s.setRun b).schedule = s.schedule := rfl

/-! ### Reading a register after an update -/

theorem State.reg_eq_of_v {s t : State} (h : t.v = s.v) (k : Nibble) : t.reg k = s.reg k := by
  simp [State.reg, h]

theorem State.reg_setReg (k j : Nibble) (b : Byte) :
    (s.setReg k b).reg j = if j = k then b else s.reg j := by
  by_cases h : j = k
  · subst h; simp [State.reg]
  · have h' : k.toNat ≠ j.toNat := fun e => h (BitVec.eq_of_toNat_eq e.symm)
    simp [State.reg, h, h']

@[simp] theorem State.reg_setReg_self (k : Nibble) (b : Byte) : (s.setReg k b).reg k = b := by
  simp [State.reg_setReg]

theorem State.reg_setReg_ne {k j : Nibble} (h : j ≠ k) (b : Byte) : (s.setReg k b).reg j = s.reg j := by
  simp [State.reg_setReg, h]

theorem State.reg_setVF (j : Nibble) (c : Bool) :
    (s.setVF c).reg j = if j = 0xF#4 then (if c then 1 else 0) else s.reg j := State.reg_setReg ..

@[simp] theorem State.reg_setMem (m : Memory) (j : Nibble) : (s.setMem m).reg j = s.reg j := rfl
@[simp] theorem State.reg_setI (w : Word) (j : Nibble) : (s.setI w).reg j = s.reg j := rfl
@[simp] theorem State.reg_setPc (w : Word) (j : Nibble) : (s.setPc w).reg j = s.reg j := rfl
@[simp] theorem State.reg_advance (j : Nibble) : (s.advance).reg j = s.reg j := rfl
@[simp] theorem State.reg_skipIf (c : Bool) (j : Nibble) : (s.skipIf c).reg j = s.reg j := rfl
@[simp] theorem State.reg_setDT (b : Byte) (j : Nibble) : (s.setDT b).reg j = s.reg j := rfl
@[simp] theorem State.reg_setST (b : Byte) (j : Nibble) : (s.setST b).reg j = s.reg j := rfl
@[simp] theorem State.reg_setFB (f : Frame) (j : Nibble) : (s.setFB f).reg j = s.reg j := rfl
@[simp] theorem State.reg_emitRender (j : Nibble) : (s.emitRender).reg j = s.reg j := rfl
@[simp] theorem State.reg_raise (f : FaultKind) (j : Nibble) : (s.raise f).reg j = s.reg j := rfl
@[simp] theorem State.reg_nextDraw (j : Nibble) : (s.nextDraw).reg j = s.reg j := rfl
@[simp] theorem State.reg_tick (j : Nibble) : (s.tick).reg j = s.reg j := rfl
@[simp] theorem State.reg_press (k : Nibble) (j : Nibble) : (s.press k).reg j = s.reg j := rfl
@[simp] theorem State.reg_release (k : Nibble) (j : Nibble) : (s.release k).reg j = s.reg j := rfl
@[simp] theorem State.reg_setRun (b : Bool) (j : Nibble) : (s.setRun b).reg j = s.reg j := rfl

/-! ### Reading a byte after an update -/

@[simp] theorem State.read_setMem (m : Memory) (a : Nat) : (s.setMem m).read a = m.read a := rfl
@[simp] theorem State.read_setV (w : Vector Byte 16) (a : Nat) : (s.setV w).read a = s.read a := rfl
@[simp] theorem State.read_setReg (k : Nibble) (b : Byte) (a : Nat) : (s.setReg k b).read a = s.read a := rfl
@[simp] theorem State.read_setVF (c : Bool) (a : Nat) : (s.setVF c).read a = s.read a := rfl
@[simp] theorem State.read_setI (w : Word) (a : Nat) : (s.setI w).read a = s.read a := rfl
@[simp] theorem State.read_setPc (w : Word) (a : Nat) : (s.setPc w).read a = s.read a := rfl
@[simp] theorem State.read_advance (a : Nat) : (s.advance).read a = s.read a := rfl
@[simp] theorem State.read_skipIf (c : Bool) (a : Nat) : (s.skipIf c).read a = s.read a := rfl
@[simp] theorem State.read_setDT (b : Byte) (a : Nat) : (s.setDT b).read a = s.read a := rfl
@[simp] theorem State.read_setST (b : Byte) (a : Nat) : (s.setST b).read a = s.read a := rfl
@[simp] theorem State.read_setFB (f : Frame) (a : Nat) : (s.setFB f).read a = s.read a := rfl
@[simp] theorem State.read_emitRender (a : Nat) : (s.emitRender).read a = s.read a := rfl
@[simp] theorem State.read_raise (f : FaultKind) (a : Nat) : (s.raise f).read a = s.read a := rfl
@[simp] theorem State.read_nextDraw (a : Nat) : (s.nextDraw).read a = s.read a := rfl
@[simp] theorem State.read_tick (a : Nat) : (s.tick).read a = s.read a := rfl
@[simp] theorem State.read_press (k : Nibble) (a : Nat) : (s.press k).read a = s.read a := rfl
@[simp] theorem State.read_release (k : Nibble) (a : Nat) : (s.release k).read a = s.read a := rfl
@[simp] theorem State.read_setRun (b : Bool) (a : Nat) : (s.setRun b).read a = s.read a := rfl

end Sys2Proof.Machine
end

