-- ==== Sys2Proof/Laws/Ops.lean ====
section
/-! SUPPORT. What each shared operation can do, said once. -/

namespace Sys2Proof.Machine

/-! ### The range check (`20_memory.md` R65) -/

theorem checkRange_inside {addr len : Nat} (h : addr + len ≤ Config.memSize) : checkRange addr len = none := by
  simp [checkRange, h]

@[simp] theorem checkRange_zero (addr : Nat) : checkRange addr 0 = none := by simp [checkRange]

theorem checkRange_outside {addr len : Nat} (h0 : 0 < len) (h : Config.memSize < addr + len) :
    checkRange addr len = some (.outOfBounds (BitVec.ofNat 16 (max addr Config.memSize))) := by
  simp [checkRange, show len ≠ 0 by omega, show ¬ addr + len ≤ Config.memSize by omega]

/-- The range check has two answers. -/
theorem checkRange_cases (addr len : Nat) :
    checkRange addr len = none ∧ (len = 0 ∨ addr + len ≤ Config.memSize) ∨
    checkRange addr len = some (.outOfBounds (BitVec.ofNat 16 (max addr Config.memSize))) ∧
      0 < len ∧ Config.memSize < addr + len := by
  by_cases h : len = 0 ∨ addr + len ≤ Config.memSize
  · exact .inl ⟨by simp [checkRange, h], h⟩
  · exact .inr ⟨by simp only [checkRange, if_neg h], by omega, by omega⟩

/-- After the check an access is made whole or not at all. -/
theorem afterCheck_cases {s : State} {addr len : Nat} {access t : State}
    (h : afterCheck s addr len access = .next t) :
    t = access ∧ (len = 0 ∨ addr + len ≤ Config.memSize) ∨
    t = s.raise (.outOfBounds (BitVec.ofNat 16 (max addr Config.memSize))) ∧
      0 < len ∧ Config.memSize < addr + len := by
  unfold afterCheck at h
  rcases checkRange_cases addr len with ⟨e, h1⟩ | ⟨e, h1⟩ <;> rw [e] at h <;> cases h
  · exact .inl ⟨rfl, h1⟩
  · exact .inr ⟨rfl, h1⟩

theorem afterCheck_inside {s access : State} {addr len : Nat} (h : len = 0 ∨ addr + len ≤ Config.memSize) :
    afterCheck s addr len access = .next access := by
  simp [afterCheck, checkRange, h]

theorem afterCheck_outside {s access : State} {addr len : Nat} (h0 : 0 < len)
    (h : Config.memSize < addr + len) :
    afterCheck s addr len access =
      .next (s.raise (.outOfBounds (BitVec.ofNat 16 (max addr Config.memSize)))) := by
  simp [afterCheck, checkRange_outside h0 h]

/-- Every instruction with a range check answers a next state. -/
theorem afterCheck_next (s : State) (addr len : Nat) (access : State) :
    ∃ t, afterCheck s addr len access = .next t := by
  unfold afterCheck
  split <;> exact ⟨_, rfl⟩

/-! ### The call stack (`41_control_flow.md` R140, R142) -/

theorem push_full {s : State} (h : s.sp.val = Config.stackDepth) (w : Word) :
    s.push w = .error .stackOverflow := by
  simp [State.push, h]

theorem push_ok {s : State} (h : s.sp.val < Config.stackDepth) (w : Word) :
    s.push w = .ok { s with stack := s.stack.set s.sp.val w h, sp := ⟨s.sp.val + 1, Nat.succ_lt_succ h⟩ } := by
  simp [State.push, h]

/-- A push answers the state with one entry more, or StackOverflow. -/
theorem push_cases (s : State) (w : Word) :
    (∃ h : s.sp.val < Config.stackDepth, s.push w =
      .ok { s with stack := s.stack.set s.sp.val w h, sp := ⟨s.sp.val + 1, Nat.succ_lt_succ h⟩ }) ∨
    s.sp.val = Config.stackDepth ∧ s.push w = .error .stackOverflow := by
  by_cases h : s.sp.val < Config.stackDepth
  · exact .inl ⟨h, push_ok h w⟩
  · have e : s.sp.val = Config.stackDepth := by have := s.sp.isLt; omega
    exact .inr ⟨e, push_full e w⟩

theorem pop_empty {s : State} (h : s.sp.val = 0) : s.pop = .error .stackUnderflow := by
  simp [State.pop, h]

theorem pop_ok {s : State} (h : 0 < s.sp.val) :
    s.pop = .ok (s.stack[s.sp.val - 1]'(by have := s.sp.isLt; omega),
      { s with sp := ⟨s.sp.val - 1, by have := s.sp.isLt; omega⟩ }) := by
  simp [State.pop, h]

/-- A pop answers the top entry and the state with one entry less, or StackUnderflow. -/
theorem pop_cases (s : State) :
    (∃ _ : 0 < s.sp.val, s.pop = .ok (s.stack[s.sp.val - 1]'(by have := s.sp.isLt; omega),
      { s with sp := ⟨s.sp.val - 1, by have := s.sp.isLt; omega⟩ })) ∨
    s.sp.val = 0 ∧ s.pop = .error .stackUnderflow := by
  by_cases h : 0 < s.sp.val
  · exact .inl ⟨h, pop_ok h⟩
  · have e : s.sp.val = 0 := by omega
    exact .inr ⟨e, pop_empty e⟩

/-! ### Register blocks, digits, sprite rows -/

@[simp] theorem length_block (s : State) (x : Nibble) : (s.block x).length = x.toNat + 1 := by
  have := x.isLt
  simp [State.block, blockLength]
  omega

/-- Byte `k` of the image of `V[0]` to `V[x]` is `V[k]`. -/
theorem getElem_block (s : State) (x : Nibble) (k : Nat) (h : k < (s.block x).length) (hk : k < 16) :
    (s.block x)[k] = s.v[k] := by
  simp [State.block]

@[simp] theorem length_digits (a : Byte) : (digits a).length = 3 := rfl

/-- A loaded block holds the memory bytes below `n` and the old registers from `n` up. -/
theorem getElem_loadBlock (m : Memory) (base : Nat) (v : Vector Byte 16) (n k : Nat) (hk : k < 16) :
    (loadBlock m base v n)[k] = if k < n then m.read (base + k) else v[k] := by
  induction n with
  | zero => simp [loadBlock]
  | succ n ih =>
    by_cases h : n = k
    · subst h; simp [loadBlock]
    · have e : k < n + 1 ↔ k < n := by omega
      simp only [loadBlock, Vector.getElem_setIfInBounds, if_neg h, ih, e]

@[simp] theorem length_spriteRows (s : State) (n : Nat) : (s.spriteRows n).length = n := by
  simp [State.spriteRows]

theorem getElem_spriteRows (s : State) (n r : Nat) (h : r < (s.spriteRows n).length) :
    (s.spriteRows n)[r] = s.read (s.base + r) := by
  simp [State.spriteRows]

/-- Every pixel lies in the framebuffer (`20_memory.md` R74). -/
theorem pixelIndex_lt (ox oy r c : Nat) : pixelIndex ox oy r c < 2048 := by
  have h1 : (oy + r) % 32 < 32 := Nat.mod_lt _ (by decide)
  have h2 : (ox + c) % 64 < 64 := Nat.mod_lt _ (by decide)
  simp only [pixelIndex, Config.fbHeight, Config.fbWidth]
  omega

/-- A flip inverts its own cell and no other. -/
theorem getLsbD_flip (d : Drawing) (cell k : Nat) (h : cell < 2048) :
    (d.flip cell).frame.getLsbD k = (d.frame.getLsbD k ^^ decide (k = cell)) := by
  have e : (decide (cell < 2048) && decide (cell = k)) = decide (k = cell) := by simp [h, eq_comm]
  simp [Drawing.flip, BitVec.getLsbD_twoPow, e]

@[simp] theorem hit_flip (d : Drawing) (cell : Nat) : (d.flip cell).hit = (d.hit || d.frame.getLsbD cell) := rfl

/-! ### Timers -/

/-- A Tick takes one off a timer and stops at 0 (`60_exceptions.md` R224). -/
theorem toNat_tickDown (b : Byte) : (tickDown b).toNat = b.toNat - 1 := by
  by_cases h : b = 0
  · subst h; rfl
  · have : b.toNat ≠ 0 := fun e => h (BitVec.eq_of_toNat_eq (by simpa using e))
    simp only [tickDown, if_neg h]
    bv_omega

/-! ### Decode, fetch and the Step -/

/-- The decoder's only error on a word carries the word (`30_encoding.md` R100). -/
theorem decodeWord_error {w : Word} {e : DecodeError} (h : decodeWord w = .error e) : e = .unknownOpcode w := by
  unfold decodeWord at h
  split at h <;> first
    | (cases h; done)
    | (cases h; rfl)
    | (unfold decodeGroup0 at h; split at h <;> [cases h; (split at h <;> cases h; rfl)])
    | (unfold decodeGroup8 at h; split at h <;> cases h; rfl)
    | (unfold decodeSkipReg at h; split at h <;> cases h; rfl)
    | (unfold decodeGroupE at h; split at h <;> cases h; rfl)
    | (unfold decodeGroupF at h; split at h <;> cases h; rfl)

theorem fetch_ok {s : State} {i : Instr} (hp : s.pc.toNat + 2 ≤ Config.memSize)
    (hd : decodeWord s.fetchWord = .ok i) : s.fetch = .ok i := by
  simp [State.fetch, checkRange_inside hp, hd]

/-- A fetch faults on its bounds first, then on its opcode, or gives the decoded instruction (R217). -/
theorem fetch_cases (s : State) :
    (Config.memSize < s.pc.toNat + 2 ∧
      s.fetch = .error (.outOfBounds (BitVec.ofNat 16 (max s.pc.toNat Config.memSize)))) ∨
    (s.pc.toNat + 2 ≤ Config.memSize ∧ decodeWord s.fetchWord = .error (.unknownOpcode s.fetchWord) ∧
      s.fetch = .error (.unknownOpcode s.fetchWord)) ∨
    ∃ i, s.pc.toNat + 2 ≤ Config.memSize ∧ decodeWord s.fetchWord = .ok i ∧ s.fetch = .ok i := by
  rcases checkRange_cases s.pc.toNat 2 with ⟨e, h⟩ | ⟨e, _, h⟩
  · have hp : s.pc.toNat + 2 ≤ Config.memSize := by omega
    cases hd : decodeWord s.fetchWord with
    | ok i => exact .inr (.inr ⟨i, hp, rfl, fetch_ok hp hd⟩)
    | error d => exact .inr (.inl ⟨hp, by rw [decodeWord_error hd], by simp [State.fetch, e, hd]⟩)
  · exact .inl ⟨h, by simp [State.fetch, e]⟩

theorem blocked_none {s : State} (h : s.blocked = none) : s.run = true ∧ s.fault = none := by
  unfold State.blocked at h
  split at h
  · cases h
  · split at h
    · exact ⟨‹_›, ‹_›⟩
    · cases h

theorem blocked_of_ready {s : State} (hr : s.run = true) (hf : s.fault = none) : s.blocked = none := by
  simp [State.blocked, hr, hf]

/-- Every instruction answers a next state: its own effect, or the fault it raises with the latch set. -/
theorem exec_next (i : Instr) (s : State) : ∃ t, exec i s = .next t := by
  cases i with
  | ret =>
    show ∃ t, execReturn s = .next t
    unfold execReturn
    split <;> exact ⟨_, rfl⟩
  | call nnn =>
    show ∃ t, execCall nnn s = .next t
    unfold execCall
    split <;> exact ⟨_, rfl⟩
  | draw x y n => exact afterCheck_next ..
  | storeBCD x => exact afterCheck_next ..
  | dumpRegs x => exact afterCheck_next ..
  | loadRegs x => exact afterCheck_next ..
  | _ => exact ⟨_, rfl⟩

/-- What a Step of the Engine can do, if it answers a next state (R127, R131). -/
theorem engineStep_cases {s t : State} (h : engineStep s = .next t) :
    s.run = true ∧ s.fault = none ∧
    ((∃ f, s.fetch = .error f ∧ t = s.raise f) ∨ ∃ i, s.fetch = .ok i ∧ exec i s = .next t) := by
  unfold engineStep at h
  split at h
  · cases h
  · rename_i hb
    obtain ⟨hr, hf⟩ := blocked_none hb
    refine ⟨hr, hf, ?_⟩
    split at h
    · cases h; exact .inl ⟨_, ‹_›, rfl⟩
    · exact .inr ⟨_, ‹_›, h⟩

/-- An enabled Step whose fetch gives an instruction is that instruction's effect (R123). -/
theorem engineStep_ok {s : State} {i : Instr} (hr : s.run = true) (hf : s.fault = none) (h : s.fetch = .ok i) :
    engineStep s = exec i s := by
  simp [engineStep, blocked_of_ready hr hf, h]

/-- An enabled Step whose fetch or decode faults is that fault's entry (R127). -/
theorem engineStep_error {s : State} {f : FaultKind} (hr : s.run = true) (hf : s.fault = none)
    (h : s.fetch = .error f) : engineStep s = .next (s.raise f) := by
  simp [engineStep, blocked_of_ready hr hf, h]

/-- What a turn can do, if it answers a next state (`60_exceptions.md` R232). -/
theorem takeTurn_cases {tn : Turn} {s t : State} (h : takeTurn tn s = .next t) :
    (tn = .engine ∧ engineStep s = .next t) ∨ (tn = .tick ∧ t = s.tick) ∨
    (∃ k, tn = .press k ∧ t = s.press k) ∨ (∃ k, tn = .release k ∧ t = s.release k) ∨
    (tn = .start ∧ t = s.setRun true) ∨ (tn = .stop ∧ t = s.setRun false) ∨
    ∃ rom, tn = .reset rom ∧ rom.length ≤ Config.romMax ∧ t = s.hostReset rom := by
  cases tn with
  | engine => exact .inl ⟨rfl, h⟩
  | reset rom =>
    simp only [takeTurn] at h
    split at h
    · cases h; simp_all
    · cases h
  | _ => cases h; simp

/-- What a step can do, if it answers a next state: the Engine's Step with an empty schedule, or the turn
at the head of the schedule, which is used up. -/
theorem step_cases {s t : State} (h : step s = .next t) :
    (s.schedule = [] ∧ engineStep s = .next t) ∨
    ∃ tn rest, s.schedule = tn :: rest ∧ takeTurn tn { s with schedule := rest } = .next t := by
  unfold step nextTransition at h
  split at h
  · exact .inl ⟨‹_›, h⟩
  · exact .inr ⟨_, _, ‹_›, h⟩

/-! ### The turn used up (log 6) -/

@[simp] theorem State.afterTurn_mem (s : State) : s.afterTurn.mem = s.mem := rfl
@[simp] theorem State.afterTurn_v (s : State) : s.afterTurn.v = s.v := rfl
@[simp] theorem State.afterTurn_i (s : State) : s.afterTurn.i = s.i := rfl
@[simp] theorem State.afterTurn_pc (s : State) : s.afterTurn.pc = s.pc := rfl
@[simp] theorem State.afterTurn_stack (s : State) : s.afterTurn.stack = s.stack := rfl
@[simp] theorem State.afterTurn_sp (s : State) : s.afterTurn.sp = s.sp := rfl
@[simp] theorem State.afterTurn_dt (s : State) : s.afterTurn.dt = s.dt := rfl
@[simp] theorem State.afterTurn_st (s : State) : s.afterTurn.st = s.st := rfl
@[simp] theorem State.afterTurn_fb (s : State) : s.afterTurn.fb = s.fb := rfl
@[simp] theorem State.afterTurn_keys (s : State) : s.afterTurn.keys = s.keys := rfl
@[simp] theorem State.afterTurn_run (s : State) : s.afterTurn.run = s.run := rfl
@[simp] theorem State.afterTurn_fault (s : State) : s.afterTurn.fault = s.fault := rfl
@[simp] theorem State.afterTurn_draws (s : State) : s.afterTurn.draws = s.draws := rfl
@[simp] theorem State.afterTurn_renders (s : State) : s.afterTurn.renders = s.renders := rfl
@[simp] theorem State.afterTurn_schedule (s : State) : s.afterTurn.schedule = s.schedule.tail := rfl
@[simp] theorem State.reg_afterTurn (s : State) (k : Nibble) : s.afterTurn.reg k = s.reg k := rfl
@[simp] theorem State.read_afterTurn (s : State) (a : Nat) : s.afterTurn.read a = s.read a := rfl
@[simp] theorem State.fetchWord_afterTurn (s : State) : s.afterTurn.fetchWord = s.fetchWord := rfl
@[simp] theorem State.fetch_afterTurn (s : State) : s.afterTurn.fetch = s.fetch := rfl

/-- With an empty schedule there is no turn to use up. -/
theorem State.afterTurn_of_nil {s : State} (h : s.schedule = []) : s.afterTurn = s := by
  have e : s.schedule.tail = s.schedule := by rw [h]; rfl
  rw [State.afterTurn, e]

/-- On the Engine's turn, by an empty schedule or by its first entry, a step is the Engine's Step with the turn used
up. -/
theorem step_enginesTurn {s : State} (h : s.EnginesTurn) : step s = engineStep s.afterTurn := by
  rcases h with h | ⟨rest, h⟩
  · rw [State.afterTurn_of_nil h]
    simp [step, nextTransition, h]
  · simp [step, nextTransition, h, takeTurn, State.afterTurn]

end Sys2Proof.Machine
end

