-- ==== Sys2Proof/Laws/PerInstr.lean ====
section
/-! SUPPORT. The family `EncodesItsRow`: every instruction is well formed, and its word has the fixed bits of its
row of the opcode map (`30_encoding.md` R92, R96). -/

namespace Sys2Proof.Laws.EncodesItsRow

/-- The word of `i` matches the row of its mnemonic, and its operands are in range (R94, R104). -/
def Statement (i : Instr) : Prop :=
  i.wellFormed = true ∧
    match findRow opcodeTable i.line.mnemonic with
    | some r => encode i &&& r.mask = r.fixed
    | none => False

theorem and_true {a b : Bool} (ha : a = true) (hb : b = true) : (a && b) = true := by simp [ha, hb]

theorem isReg_nibble (x : Nibble) : (Operand.reg x.toNat).isReg = true := decide_eq_true x.isLt

theorem isConst_field {n : Nat} (b : BitVec n) : (Operand.const b.toNat).isConst n = true := decide_eq_true b.isLt

theorem clearScreen : Statement (.clearScreen) :=
  ⟨rfl, rfl⟩

theorem ret : Statement (.ret) :=
  ⟨rfl, rfl⟩

theorem jump (nnn : Addr) : Statement (.jump nnn) :=
  ⟨isConst_field nnn, wordA_and_mask _ _⟩

theorem call (nnn : Addr) : Statement (.call nnn) :=
  ⟨isConst_field nnn, wordA_and_mask _ _⟩

theorem skipEqConst (x : Nibble) (nn : Byte) : Statement (.skipEqConst x nn) :=
  ⟨and_true (isReg_nibble x) (isConst_field nn), wordXK_and_mask _ _ _⟩

theorem skipNeqConst (x : Nibble) (nn : Byte) : Statement (.skipNeqConst x nn) :=
  ⟨and_true (isReg_nibble x) (isConst_field nn), wordXK_and_mask _ _ _⟩

theorem skipEqReg (x y : Nibble) : Statement (.skipEqReg x y) :=
  ⟨and_true (isReg_nibble x) (isReg_nibble y), wordXYN_and_sub _ _ _ _⟩

theorem setConst (x : Nibble) (nn : Byte) : Statement (.setConst x nn) :=
  ⟨and_true (isReg_nibble x) (isConst_field nn), wordXK_and_mask _ _ _⟩

theorem addConst (x : Nibble) (nn : Byte) : Statement (.addConst x nn) :=
  ⟨and_true (isReg_nibble x) (isConst_field nn), wordXK_and_mask _ _ _⟩

theorem setReg (x y : Nibble) : Statement (.setReg x y) :=
  ⟨and_true (isReg_nibble x) (isReg_nibble y), wordXYN_and_sub _ _ _ _⟩

theorem or (x y : Nibble) : Statement (.or x y) :=
  ⟨and_true (isReg_nibble x) (isReg_nibble y), wordXYN_and_sub _ _ _ _⟩

theorem and (x y : Nibble) : Statement (.and x y) :=
  ⟨and_true (isReg_nibble x) (isReg_nibble y), wordXYN_and_sub _ _ _ _⟩

theorem xor (x y : Nibble) : Statement (.xor x y) :=
  ⟨and_true (isReg_nibble x) (isReg_nibble y), wordXYN_and_sub _ _ _ _⟩

theorem add (x y : Nibble) : Statement (.add x y) :=
  ⟨and_true (isReg_nibble x) (isReg_nibble y), wordXYN_and_sub _ _ _ _⟩

theorem sub (x y : Nibble) : Statement (.sub x y) :=
  ⟨and_true (isReg_nibble x) (isReg_nibble y), wordXYN_and_sub _ _ _ _⟩

theorem shiftRight (x y : Nibble) : Statement (.shiftRight x y) :=
  ⟨and_true (isReg_nibble x) (isReg_nibble y), wordXYN_and_sub _ _ _ _⟩

theorem subReverse (x y : Nibble) : Statement (.subReverse x y) :=
  ⟨and_true (isReg_nibble x) (isReg_nibble y), wordXYN_and_sub _ _ _ _⟩

theorem shiftLeft (x y : Nibble) : Statement (.shiftLeft x y) :=
  ⟨and_true (isReg_nibble x) (isReg_nibble y), wordXYN_and_sub _ _ _ _⟩

theorem skipNeqReg (x y : Nibble) : Statement (.skipNeqReg x y) :=
  ⟨and_true (isReg_nibble x) (isReg_nibble y), wordXYN_and_sub _ _ _ _⟩

theorem setIndex (nnn : Addr) : Statement (.setIndex nnn) :=
  ⟨isConst_field nnn, wordA_and_mask _ _⟩

theorem jumpPlusV0 (nnn : Addr) : Statement (.jumpPlusV0 nnn) :=
  ⟨isConst_field nnn, wordA_and_mask _ _⟩

theorem randMask (x : Nibble) (nn : Byte) : Statement (.randMask x nn) :=
  ⟨and_true (isReg_nibble x) (isConst_field nn), wordXK_and_mask _ _ _⟩

theorem draw (x y n : Nibble) : Statement (.draw x y n) :=
  ⟨and_true (and_true (isReg_nibble x) (isReg_nibble y)) (isConst_field n), wordXYN_and_mask _ _ _ _⟩

theorem skipKeyPressed (x : Nibble) : Statement (.skipKeyPressed x) :=
  ⟨isReg_nibble x, wordXK_and_code _ _ _⟩

theorem skipKeyNotPressed (x : Nibble) : Statement (.skipKeyNotPressed x) :=
  ⟨isReg_nibble x, wordXK_and_code _ _ _⟩

theorem getDelay (x : Nibble) : Statement (.getDelay x) :=
  ⟨isReg_nibble x, wordXK_and_code _ _ _⟩

theorem awaitKey (x : Nibble) : Statement (.awaitKey x) :=
  ⟨isReg_nibble x, wordXK_and_code _ _ _⟩

theorem setDelay (x : Nibble) : Statement (.setDelay x) :=
  ⟨isReg_nibble x, wordXK_and_code _ _ _⟩

theorem setSound (x : Nibble) : Statement (.setSound x) :=
  ⟨isReg_nibble x, wordXK_and_code _ _ _⟩

theorem addToIndex (x : Nibble) : Statement (.addToIndex x) :=
  ⟨isReg_nibble x, wordXK_and_code _ _ _⟩

theorem setIndexFont (x : Nibble) : Statement (.setIndexFont x) :=
  ⟨isReg_nibble x, wordXK_and_code _ _ _⟩

theorem storeBCD (x : Nibble) : Statement (.storeBCD x) :=
  ⟨isReg_nibble x, wordXK_and_code _ _ _⟩

theorem dumpRegs (x : Nibble) : Statement (.dumpRegs x) :=
  ⟨isReg_nibble x, wordXK_and_code _ _ _⟩

theorem loadRegs (x : Nibble) : Statement (.loadRegs x) :=
  ⟨isReg_nibble x, wordXK_and_code _ _ _⟩

end Sys2Proof.Laws.EncodesItsRow
end

