-- ==== Sys2Proof/Tests/Slice0.lean ====
section
/-! SUPPORT. Small tests. Every expected result is copied or computed by hand from `95_test_vectors.md` (its ids
are named) or from the examples of the instruction rules. -/

namespace Sys2Proof.Tests

open Sys2Proof.Machine

/-! ### Well-formedness (R104): one ill-formed line for each check -/

theorem test_wf_line : AsmLine.wellFormed ⟨"Draw", [.reg 1, .reg 2, .const 5]⟩ = true := by decide

theorem test_ill_formed_mnemonic : AsmLine.wellFormed ⟨"DRW", [.reg 1, .reg 2, .const 5]⟩ = false := by decide

theorem test_ill_formed_register : AsmLine.wellFormed ⟨"SetReg", [.reg 16, .reg 0]⟩ = false := by decide

theorem test_ill_formed_register_is_constant : AsmLine.wellFormed ⟨"SetReg", [.const 1, .reg 0]⟩ = false := by
  decide

theorem test_ill_formed_nnn : AsmLine.wellFormed ⟨"Jump", [.const 4096]⟩ = false := by decide

theorem test_ill_formed_nn : AsmLine.wellFormed ⟨"SetConst", [.reg 0, .const 256]⟩ = false := by decide

theorem test_ill_formed_n : AsmLine.wellFormed ⟨"Draw", [.reg 0, .reg 0, .const 16]⟩ = false := by decide

theorem test_ill_formed_count : AsmLine.wellFormed ⟨"Return", [.reg 0]⟩ = false := by decide

theorem test_ill_formed_label : AsmLine.wellFormed ⟨"SetConst", [.reg 0, .label "done"]⟩ = false := by decide

/-! ### Decoding: the words of section 2.1 -/

theorem test_decode_exact :
    decodeWord 0x00E0 = .ok .clearScreen ∧ decodeWord 0x00EE = .ok .ret := by decide

theorem test_decode_address :
    decodeWord 0x1ABC = .ok (.jump 0xABC) ∧ decodeWord 0x2FFF = .ok (.call 0xFFF) ∧
    decodeWord 0xA123 = .ok (.setIndex 0x123) ∧ decodeWord 0xB123 = .ok (.jumpPlusV0 0x123) := by decide

theorem test_decode_register_byte :
    decodeWord 0x3A7F = .ok (.skipEqConst 10 0x7F) ∧ decodeWord 0x4000 = .ok (.skipNeqConst 0 0) ∧
    decodeWord 0x6F00 = .ok (.setConst 15 0) ∧ decodeWord 0x7212 = .ok (.addConst 2 0x12) ∧
    decodeWord 0xC1FF = .ok (.randMask 1 0xFF) := by decide

theorem test_decode_two_registers :
    decodeWord 0x5AB0 = .ok (.skipEqReg 10 11) ∧ decodeWord 0x9AB0 = .ok (.skipNeqReg 10 11) ∧
    decodeWord 0x8120 = .ok (.setReg 1 2) ∧ decodeWord 0x8121 = .ok (.or 1 2) ∧
    decodeWord 0x8122 = .ok (.and 1 2) ∧ decodeWord 0x8123 = .ok (.xor 1 2) := by decide

theorem test_decode_two_registers_flag :
    decodeWord 0x8124 = .ok (.add 1 2) ∧ decodeWord 0x8125 = .ok (.sub 1 2) ∧
    decodeWord 0x8126 = .ok (.shiftRight 1 2) ∧ decodeWord 0x8127 = .ok (.subReverse 1 2) ∧
    decodeWord 0x812E = .ok (.shiftLeft 1 2) := by decide

theorem test_decode_sprite :
    decodeWord 0xD125 = .ok (.draw 1 2 5) ∧ decodeWord 0xD120 = .ok (.draw 1 2 0) := by decide

theorem test_decode_keys_timers :
    decodeWord 0xE19E = .ok (.skipKeyPressed 1) ∧ decodeWord 0xE1A1 = .ok (.skipKeyNotPressed 1) ∧
    decodeWord 0xF107 = .ok (.getDelay 1) ∧ decodeWord 0xF10A = .ok (.awaitKey 1) ∧
    decodeWord 0xF115 = .ok (.setDelay 1) ∧ decodeWord 0xF118 = .ok (.setSound 1) := by decide

theorem test_decode_index :
    decodeWord 0xF11E = .ok (.addToIndex 1) ∧ decodeWord 0xF129 = .ok (.setIndexFont 1) ∧
    decodeWord 0xF133 = .ok (.storeBCD 1) ∧ decodeWord 0xF155 = .ok (.dumpRegs 1) ∧
    decodeWord 0xF165 = .ok (.loadRegs 1) ∧ decodeWord 0xFF65 = .ok (.loadRegs 15) := by decide

theorem test_decode_unknown :
    ([0x0000, 0x00E1, 0x00EF, 0x0123, 0x0FFF, 0x01E0, 0x5AB1, 0x5ABF, 0x8128, 0x812F, 0x9AB5, 0xE000, 0xE19F,
      0xF100, 0xF175, 0xFFFF].all fun w => decide (decodeWord w = .error (.unknownOpcode w))) = true := by decide

/-- A byte sequence is read high byte first, and the rest is handed back (R68, R90). -/
theorem test_decode_bytes :
    decodeBytes [0x60, 0x05, 0x61] = .ok (.setConst 0 5, [0x61]) ∧ decodeBytes [0x60] = .error .tooShort := by
  decide

theorem test_decode_table_word : decodeTableWord 16 0x8014 = some (.add 0 1) := by decide

theorem test_encode :
    encode (.draw 1 2 5) = 0xD125 ∧ encode (.call 0xFFF) = 0x2FFF ∧ encode (.skipEqConst 10 0x7F) = 0x3A7F ∧
    encode (.shiftLeft 1 2) = 0x812E ∧ encode (.loadRegs 15) = 0xFF65 := by decide

/-- No word matches two rows (R94). -/
theorem test_rows_disjoint :
    opcodeTable.Pairwise (fun r r' => r.fixed &&& r'.mask ≠ r'.fixed &&& r.mask) := by decide

/-! ### One step on small states -/

/-- The state after `Reset` and `Start`, with the general registers `l` (the rest 0). -/
def start (l : List Byte) : State :=
  { State.reset with run := true, v := ⟨⟨(l ++ List.replicate 16 0).take 16⟩, by simp⟩ }

/-- One step with the word `w` at `pc`, and a look at the state after it. -/
def look {α : Type} (s : State) (w : Nat) (f : State → α) : Option α :=
  match step (s.withFetchWord 16 w) with
  | .next t => some (f t)
  | _ => none

/-- `TJ1`, `TJ2`. -/
theorem test_jump : look (start []) 0x1204 State.pc = some 0x204 := by decide

/-- `TJ9`: no reduction to 12 bits. -/
theorem test_jump_plus_v0 : look (start [0xFF]) 0xBFFF State.pc = some 0x10FE := by decide

/-- `TJ4`. -/
theorem test_call :
    look { start [] with pc := 0x204 } 0x220A (fun t => (t.pc, t.sp.val, t.stack[0])) =
      some (0x20A, 1, 0x206) := by decide

/-- `TJ7`. -/
theorem test_call_full :
    look { start [] with sp := 16 } 0x2300 (fun t => (t.pc, t.sp.val, t.fault)) =
      some (0x200, 16, some .stackOverflow) := by decide

/-- `TJ5`: the popped entry keeps its bits. -/
theorem test_return :
    look { start [] with pc := 0x20C, sp := 1, stack := (Vector.replicate 16 0).set 0 0x206 } 0x00EE
      (fun t => (t.pc, t.sp.val, t.stack[0])) = some (0x206, 0, 0x206) := by decide

/-- `TJ6`. -/
theorem test_return_empty :
    look (start []) 0x00EE (fun t => (t.pc, t.sp.val, t.fault)) = some (0x200, 0, some .stackUnderflow) := by
  decide

/-- `TK1`, `TK3`. -/
theorem test_skip_const :
    look { start [] with pc := 0x208 } 0x3100 State.pc = some 0x20C ∧
    look { start [0, 0, 7] with pc := 0x300 } 0x4207 State.pc = some 0x302 := by decide

/-- `TK5`, `TK9`. -/
theorem test_skip_reg :
    look { start [0, 0, 0, 0x10, 0x10] with pc := 0x210 } 0x5340 State.pc = some 0x214 ∧
    look { start [0, 0, 0, 0x10, 0x10] with pc := 0x210 } 0x9340 State.pc = some 0x212 := by decide

/-- `TA1`. -/
theorem test_set_const : look (start []) 0x6005 (fun t => (t.reg 0, t.pc)) = some (5, 0x202) := by decide

/-- `TA3`: no flag. -/
theorem test_add_const_wraps :
    look (start [250]) 0x700A (fun t => (t.reg 0, t.reg 15)) = some (4, 0) := by decide

/-- `TA6`. -/
theorem test_set_reg : look (start [0, 0x2A]) 0x8010 (fun t => t.reg 0) = some 0x2A := by decide

/-- `TA7`, `TA8`, `TA9`. -/
theorem test_logic :
    look (start [0xF0, 0x0F]) 0x8011 (fun t => t.reg 0) = some 0xFF ∧
    look (start [0xF0, 0x3C]) 0x8012 (fun t => t.reg 0) = some 0x30 ∧
    look (start [0xF0, 0x3C]) 0x8013 (fun t => t.reg 0) = some 0xCC := by decide

/-- Registers with `VF`. -/
def startVF (a b f : Byte) : State := start ([a, b] ++ List.replicate 13 0 ++ [f])

/-- `TA11`, `TA17`. -/
theorem test_add :
    look (start [250, 10]) 0x8014 (fun t => (t.reg 0, t.reg 15)) = some (4, 1) ∧
    look (startVF 0 100 200) 0x8F14 (fun t => t.reg 15) = some 1 := by decide

/-- `TA20`, `TA22`. -/
theorem test_sub :
    look (start [5, 10]) 0x8015 (fun t => (t.reg 0, t.reg 15)) = some (251, 0) ∧
    look (start [7, 7]) 0x8015 (fun t => (t.reg 0, t.reg 15)) = some (0, 1) := by decide

/-- `TA28`, `TA34`. -/
theorem test_shift_right :
    look (start [0xAA, 5]) 0x8016 (fun t => (t.reg 0, t.reg 1, t.reg 15)) = some (2, 5, 1) ∧
    look (startVF 7 0 1) 0x80F6 (fun t => (t.reg 0, t.reg 15)) = some (0, 1) := by decide

/-- `TA36`, `TA40`. -/
theorem test_sub_reverse :
    look (start [10, 5]) 0x8017 (fun t => (t.reg 0, t.reg 15)) = some (251, 0) ∧
    look (startVF 3 0 1) 0x80F7 (fun t => (t.reg 0, t.reg 15)) = some (254, 0) := by decide

/-- `TA41`, `TA45`. -/
theorem test_shift_left :
    look (start [0xAA, 0x81]) 0x801E (fun t => (t.reg 0, t.reg 1, t.reg 15)) = some (2, 0x81, 1) ∧
    look (startVF 0 0x80 0) 0x8F1E (fun t => t.reg 15) = some 1 := by decide

/-- R173: each execution uses up one draw; `TA48`, the mask 0, is `RandMaskMasksAFreshDraw`. -/
theorem test_rand_mask : look (start []) 0xC000 (fun t => (t.draws, t.pc)) = some (1, 0x202) := by decide

/-- `TM1`. -/
theorem test_set_index : look (start []) 0xA300 State.i = some 0x300 := by decide

/-- `TM3`, `TM3e`. -/
theorem test_add_to_index :
    look { start [2] with i := 0xFFF } 0xF01E (fun t => (t.i, t.reg 15)) = some (0x1001, 1) ∧
    look { start [2] with i := 0xFFFF } 0xF01E (fun t => (t.i, t.reg 15)) = some (1, 1) := by decide

/-- `TM3d`: with `x = 15` the old `VF` is the addend, then `VF` takes the flag. -/
theorem test_add_to_index_vf :
    look { startVF 0 0 5 with i := 0x010 } 0xFF1E (fun t => (t.i, t.reg 15)) = some (0x015, 0) := by decide

/-- `TM4a`, `TM4b`. -/
theorem test_set_index_font :
    look (start [0x0F]) 0xF029 State.i = some 0x09B ∧ look (start [0x1A]) 0xF029 State.i = some 0x082 := by decide

/-- `TM5`, `TM5d`. -/
theorem test_store_bcd :
    look { start [254] with i := 0x300 } 0xF033 (fun t => (t.read 0x300, t.read 0x301, t.read 0x302)) =
      some (2, 5, 4) ∧
    look { start [254] with i := 0xFFE } 0xF033 (fun t => (t.read 0xFFE, t.pc, t.fault)) =
      some (0, 0x200, some (.outOfBounds 0x1000)) := by decide

/-- `TM6`, `TM6b`. -/
theorem test_dump_regs :
    look { start [0x11, 0x22, 0x33, 0x44] with i := 0x400 } 0xF255
      (fun t => ([0x400, 0x401, 0x402, 0x403].map t.read, t.i)) = some ([0x11, 0x22, 0x33, 0], 0x400) ∧
    look { start [0x11] with i := 0xFFF } 0xF155 (fun t => (t.read 0xFFF, t.fault)) =
      some (0, some (.outOfBounds 0x1000)) := by decide

/-- `TM7`, `TM7b`. -/
theorem test_load_regs :
    look { start [0, 0, 0, 9] with i := 0x050 } 0xF265 (fun t => ([0, 1, 2, 3].map t.reg, t.i)) =
      some ([0xF0, 0x90, 0x90, 9], 0x050) ∧
    look { start [7] with i := 0xFFF } 0xF165 (fun t => (t.reg 0, t.fault)) =
      some (7, some (.outOfBounds 0x1000)) := by decide

/-- The frame whose lit cells are listed. -/
def lit (cells : List Nat) : Frame := cells.foldl (fun f k => f ||| BitVec.twoPow 2048 k) 0

/-- `TD1`. -/
theorem test_clear_screen :
    look { startVF 0 0 1 with fb := lit [0, 100, 2047] } 0x00E0 (fun t => (t.fb, t.reg 15, t.renders)) =
      some (0, 1, [⟨0, 64, 32⟩]) := by decide +kernel

/-- `TD5`: wrap on both axes, no collision; one Render event with the frame. -/
theorem test_draw_wraps :
    look { start [62, 31] with i := 0x20C, mem := [(0x20C, 0xC3), (0x20D, 0x81)] } 0xD012
      (fun t => (t.fb, t.reg 15, t.renders)) =
      some (lit [5, 62, 1988, 1989, 2046, 2047], 0,
        [⟨lit [5, 62, 1988, 1989, 2046, 2047], 64, 32⟩]) := by decide +kernel

/-- `TD4`, `TD10`. -/
theorem test_draw_collision :
    look { start [0, 0, 2] with i := 0x051, fb := lit [0, 1, 2, 3] } 0xD211 (fun t => (t.fb, t.reg 15)) =
      some (lit [0, 1, 3, 5], 1) ∧
    look { startVF 0 0 5 with i := 0x050 } 0xDF11 (fun t => (t.fb, t.reg 15)) =
      some (lit [5, 6, 7, 8], 0) := by decide +kernel

/-- `TD7`, `TD9`. -/
theorem test_draw_bounds :
    look { startVF 0 0 1 with i := 0x1001, fb := lit [7] } 0xD010 (fun t => (t.fb, t.reg 15, t.fault)) =
      some (lit [7], 0, none) ∧
    look { startVF 0 0 1 with i := 0xFFF, fb := lit [9] } 0xD012
      (fun t => (t.fb, t.reg 15, t.fault, t.renders)) =
      some (lit [9], 1, some (.outOfBounds 0x1000), []) := by decide +kernel

/-- `TT1`, `TT3`. -/
theorem test_skip_key_pressed :
    look { start [7] with keys := 0x0080 } 0xE09E State.pc = some 0x204 ∧
    look { start [0x17] with keys := 0x0080 } 0xE09E State.pc = some 0x202 := by decide

/-- `TT5`, `TT6`. -/
theorem test_skip_key_not_pressed :
    look { start [7] with keys := 0x0080 } 0xE0A1 State.pc = some 0x202 ∧
    look { start [0x17] with keys := 0x0080 } 0xE0A1 State.pc = some 0x204 := by decide

/-- `TT7`, `TT8`. -/
theorem test_await_key :
    look { start [7] with keys := 0x0008 } 0xF00A State.pc = some 0x200 ∧
    look { start [7] with keys := 0x0080 } 0xF00A (fun t => (t.pc, t.reg 0)) = some (0x202, 7) := by decide

/-- `TT10`. -/
theorem test_get_delay :
    look { start [] with dt := 0x3C } 0xF207 (fun t => (t.reg 2, t.dt)) = some (0x3C, 0x3C) := by decide

/-- `TT11`. -/
theorem test_set_delay : look (start [0, 60]) 0xF115 (fun t => (t.dt, t.st)) = some (60, 0) := by decide

/-- `TT12`. -/
theorem test_set_sound :
    look { start [0, 5] with dt := 9 } 0xF118 (fun t => (t.st, t.dt)) = some (5, 9) := by decide

/-! ### The other agents, faults, reset -/

/-- One step, and a look at the state after it. -/
def turn {α : Type} (s : State) (f : State → α) : Option α :=
  match step s with
  | .next t => some (f t)
  | _ => none

/-- `TH1`, `TH2`, `TH5`. -/
theorem test_tick :
    turn { start [] with dt := 3, st := 1, schedule := [.tick] } (fun t => (t.dt, t.st)) = some (2, 0) ∧
    turn { start [] with schedule := [.tick] } (fun t => (t.dt, t.st)) = some (0, 0) ∧
    turn { start [] with dt := 5, fault := some (.unknownOpcode 0xFFFF), schedule := [.tick] }
      (fun t => (t.dt, t.fault)) = some (4, some (.unknownOpcode 0xFFFF)) := by decide

/-- `TH6` to `TH9`. -/
theorem test_press_release :
    turn { start [] with schedule := [.press 4] } State.keys = some 0x0010 ∧
    turn { start [] with keys := 0x0010, schedule := [.press 4] } State.keys = some 0x0010 ∧
    turn { start [] with keys := 0x0011, schedule := [.release 4] } State.keys = some 0x0001 ∧
    turn { start [] with schedule := [.release 4] } State.keys = some 0 := by decide

/-- `TH10`, `TH11`. -/
theorem test_start_stop :
    turn { start [] with schedule := [.stop] } State.run = some false ∧
    turn { State.reset with schedule := [.start] } State.run = some true := by decide

/-- `TH12`: the fault, and no Step after it. -/
theorem test_unknown_opcode :
    look (start []) 0xFFFF (fun t => (t.pc, t.fault, turn t State.pc)) =
      some (0x200, some (.unknownOpcode 0xFFFF), none) := by decide

/-- `TH13`: the bounds check comes before the decoder. -/
theorem test_fetch_bounds :
    turn { start [] with pc := 0xFFF, mem := [(0xFFF, 0xFF)] } (fun t => (t.pc, t.fault)) =
      some (0xFFF, some (.outOfBounds 0x1000)) := by decide

/-- `TH14`. -/
theorem test_reset :
    turn { start [1] with sp := 3, fault := some .stackOverflow, schedule := [.reset [0x60, 0x05]] }
      (fun t => ([0x200, 0x201, 0x202, 0x050, 0x09F].map t.read, t.reg 0, t.pc, t.run, t.fault)) =
      some ([0x60, 0x05, 0, 0xF0, 0x80], 0, 0x200, false, none) := by decide

/-- `TH17`: after Reset, before Start, no Step is enabled. -/
theorem test_reset_is_stopped : (match step State.reset with | .fault r => some r | _ => none) =
    some .engineStopped := by decide

/-- `S10`: Reset with the ROM of the source's scenario, Start, and its four Steps. -/
theorem test_scenario :
    (match core.run 6 { State.reset with schedule := [.reset [0x60, 5, 0x61, 3, 0x80, 0x14, 0, 0xE0], .start] } with
      | .next t => some (Machine.State.reg t 0, Machine.State.reg t 1, Machine.State.reg t 15,
          Machine.State.fb t, Machine.State.pc t)
      | _ => none) = some (8, 3, 0, 0, 0x208) := by decide +kernel

/-! ### Assembly: the words of program P2 -/

theorem test_assemble :
    assemble [.line ⟨"SetConst", [.reg 0, .const 0]⟩, .label "loop", .line ⟨"Add", [.reg 0, .reg 1]⟩,
      .line ⟨"Jump", [.label "loop"]⟩, .org 0x20C, .bytes [0xC3, 0x81]] =
    some [(0x200, 0x60), (0x201, 0x00), (0x202, 0x80), (0x203, 0x14), (0x204, 0x12), (0x205, 0x02),
      (0x20C, 0xC3), (0x20D, 0x81)] := by decide

theorem test_assemble_refuses : assemble [.line ⟨"SetConst", [.reg 0, .const 256]⟩] = none := by decide

/-! ### Witnesses: for each obligation with hypotheses, states and operands that meet all of them, at a boundary
of their range where they give a range -/

/-- A running state with the word `w` at `pc`. -/
def at_ (s : State) (w : Nat) : State := s.withFetchWord 16 w

/-- `exec i s` answers a next state with the property `p`. -/
def Runs (i : Instr) (s : State) (p : State → Prop) : Prop := ∃ t, exec i s = .next t ∧ p t

theorem witness_EncodeOfDecodeIsIdentity : ∃ i, decodeWord 0xFF65 = .ok i := ⟨_, rfl⟩

theorem witness_DecoderAgreesWithOpcodeMap :
    (∃ i, decodeWord 0x9FF0 = .ok i) ∧ (∀ r ∈ opcodeTable, (0x9FF1 : Word) &&& r.mask ≠ r.fixed) ∧
    decodeWord 0x9FF1 = .error (.unknownOpcode 0x9FF1) := ⟨⟨_, rfl⟩, by decide, by decide⟩

/-- The two forms of the Engine's turn: an empty schedule, and a turn of its own with a Tick after it. -/
theorem witness_Ready (pc : Word) :
    ({ start [] with pc := pc } : State).Ready ∧ ({ start [] with pc := pc, schedule := [.engine, .tick] } : State).Ready :=
  ⟨⟨rfl, rfl, .inl rfl⟩, rfl, rfl, .inr ⟨_, rfl⟩⟩

/-- The last place an instruction can be fetched from is 4094; a Step before a listed Tick. -/
theorem witness_StepRunsDecodedInstruction :
    let s : State := { start [] with pc := 4094, mem := [(4094, 0x12), (4095, 0x34)], schedule := [.engine, .tick] }
    s.Ready ∧ s.pc.toNat + 1 ≤ 4095 ∧
      decodeWord (s.read s.pc.toNat ++ s.read (s.pc.toNat + 1)) = .ok (.jump 0x234) :=
  ⟨⟨rfl, rfl, .inr ⟨_, rfl⟩⟩, by decide, by decide⟩

/-- Its fault clause: a fetch past memory, and a word of no row. -/
theorem witness_StepEntersFetchAndDecodeFault :
    ({ start [] with pc := 4095 } : State).fetch = .error (.outOfBounds 4096) ∧
    (at_ (start []) 0x00E1).fetch = .error (.unknownOpcode 0x00E1) := ⟨rfl, rfl⟩

/-- `witness_Ready` gives the states. -/
theorem witness_FetchPastMemoryFaults :
    4095 ≤ (4095 : Word).toNat ∧ 4095 ≤ (4096 : Word).toNat ∧ 4095 ≤ (65535 : Word).toNat := by decide

theorem witness_UnmatchedWordFaults :
    let s := at_ (start []) 0x00E1
    s.Ready ∧ s.pc.toNat + 1 ≤ 4095 ∧ (0x00E1 : Word) = s.read s.pc.toNat ++ s.read (s.pc.toNat + 1) ∧
      ∀ r ∈ opcodeTable, (0x00E1 : Word) &&& r.mask ≠ r.fixed :=
  ⟨⟨rfl, rfl, .inl rfl⟩, by decide, by decide, by decide⟩

/-- After the fault the next turn is the Engine's again. -/
theorem witness_FaultsArePrecise :
    ∃ s t f, State.Ready s ∧ step s = .next t ∧ t.fault = some f ∧ t.EnginesTurn :=
  ⟨{ at_ (start []) 0x00EE with schedule := [.engine, .engine] }, _, .stackUnderflow, ⟨rfl, rfl, .inr ⟨_, rfl⟩⟩, rfl, rfl,
    .inr ⟨_, rfl⟩⟩

/-- Each clause at the lowest base that is out of range. -/
theorem witness_AccessPastMemoryRaisesOutOfBounds :
    let s (pc i : Word) : State := { start [] with pc := pc, i := i }
    ((s 4095 0).Ready ∧ 4095 < (s 4095 0).pc.toNat + 1) ∧ 4095 < (s 0 4094).i.toNat + 2 ∧
    4095 < (s 0 4096).i.toNat + (0#4).toNat ∧ 4095 < (s 0 4081).i.toNat + (15#4).toNat ∧
    0 < (1#4).toNat ∧ 4095 < (s 0 4096).i.toNat + (1#4).toNat - 1 ∧
    4095 < (s 0 4082).i.toNat + (15#4).toNat - 1 :=
  ⟨⟨⟨rfl, rfl, .inl rfl⟩, by decide⟩, by decide, by decide, by decide, by decide, by decide, by decide⟩

theorem witness_OnlySixInstructionsFault :
    Runs .ret (start []) (fun t => t.fault ≠ (start []).fault) ∧
    Runs (.loadRegs 15) { start [] with i := 4081 } (fun t => t.fault ≠ (start []).fault) :=
  ⟨⟨_, rfl, by decide⟩, ⟨_, rfl, by decide⟩⟩

theorem witness_FaultLatchClearedOnlyByReset :
    ∀ turns ∈ ([[.tick], [.reset []]] : List (List Turn)),
      let s : State := { start [] with fault := some .stackOverflow, schedule := turns }
      s.fault = some .stackOverflow ∧ (turn s id).isSome = true := by decide +kernel

/-- Running, faulted and stopped. -/
theorem witness_StepEnabledExactlyWhenRunningUnfaulted :
    ({ at_ (start []) 0x1200 with schedule := [.engine, .stop] } : State).schedule = .engine :: [.stop] ∧
    (at_ (start []) 0x1200).schedule = [] ∧ (turn (at_ (start []) 0x1200) id).isSome = true ∧
    ({ start [] with fault := some .stackOverflow } : State).fault = some .stackOverflow ∧
    State.reset.schedule = [] ∧ State.reset.fault = none ∧ State.reset.run = false := by decide

theorem witness_ReturnPopsIntoPc :
    (start []).sp.val = 0 ∧ 0 < ({ start [] with sp := 1 } : State).sp.val ∧ 0 < ({ start [] with sp := 16 } : State).sp.val := by decide

theorem witness_CallPushesNextAddress :
    ({ start [] with sp := 16 } : State).sp.val = Config.stackDepth ∧
    (start []).sp.val < Config.stackDepth ∧ ({ start [] with sp := 15 } : State).sp.val < Config.stackDepth := by
  decide

theorem witness_ReturnUndoesCall :
    ∃ t u : State, ({ start [] with sp := 15 } : State).sp.val < Config.stackDepth ∧
      exec (.call 0x300) { start [] with sp := 15 } = .next t ∧ u.stack = t.stack ∧ u.sp = t.sp :=
  ⟨_, _, by decide, rfl, rfl, rfl⟩

/-- A nonzero low nibble, and both bases. -/
theorem witness_RegisterSkipsAdvanceByFourOrTwo :
    (1#4 : Nibble) ≠ 0 ∧ (15#4 : Nibble) ≠ 0 ∧ 0x5000 ∈ [0x5000, 0x9000] ∧ 0x9000 ∈ [0x5000, 0x9000] := by decide

/-- For `AddSetsCarry`, `SubtractionsSetNoBorrow` and `ShiftsMoveVyByOne`: an `x` other than 15, and 15 itself. -/
theorem witness_RegisterResults : (14#4 : Nibble) ≠ 15#4 ∧ ¬ (15#4 : Nibble) ≠ 15#4 := by decide

theorem witness_RandMaskMasksAFreshDraw : (0xFE : Byte).getLsbD 0 = false := rfl

theorem witness_StoreBCDWritesThreeDigits :
    let s : State := { start [254] with i := 4093, mem := [(4093, 1)] }
    s.mem.wf = true ∧ s.i.toNat + 2 ≤ 4095 := by decide

theorem witness_DumpRegsStoresBlock :
    let s : State := { start [1] with i := 4080, mem := [(4095, 1)] }
    s.mem.wf = true ∧ s.i.toNat + (15#4).toNat ≤ 4095 := by decide

theorem witness_LoadRegsLoadsBlock :
    ({ start [] with i := 4080 } : State).i.toNat + (15#4).toNat ≤ 4095 ∧
    ({ start [] with i := 4095 } : State).i.toNat + (0#4).toNat ≤ 4095 := by decide

theorem witness_StoredWordIsFetchedNext :
    let s := at_ { start [0x12, 0x02] with i := 0x202 } 0xF155
    s.Ready ∧ s.mem.wf = true ∧ s.fetch = .ok (.dumpRegs 1) ∧ 1 ≤ (1#4).toNat ∧ s.i = s.pc + 2 ∧
      s.i.toNat + (1#4).toNat ≤ 4095 :=
  ⟨⟨rfl, rfl, .inl rfl⟩, by decide, by decide, by decide, by decide, by decide⟩

/-- A sprite that ends at the last byte of memory, and no rows with `I` outside memory. -/
theorem witness_DrawXorsSpriteAndFlagsCollision :
    ({ start [] with i := 4081 } : State).i.toNat + (15#4).toNat - 1 ≤ 4095 ∧ (0#4).toNat = 0 := by decide

/-- The two collision clauses: one lit pixel under the sprite byte 0x80, and the same pixel dark. -/
theorem witness_DrawCollisionClauses :
    let s (f : Frame) : State := { start [] with i := 0x300, mem := [(0x300, 0x80)], fb := f }
    (∃ px < 64, ∃ py < 32, (s 1).fb.getLsbD (py * 64 + px) = true ∧ (s 1).Covers 0 0 1 px py) ∧
    ¬ ∃ px < 64, ∃ py < 32, (s 0).fb.getLsbD (py * 64 + px) = true ∧ (s 0).Covers 0 0 1 px py :=
  ⟨⟨0, by decide, 0, by decide, by decide +kernel, 0, by decide, 0, by decide, by decide +kernel, rfl, rfl⟩, fun h => by
    obtain ⟨px, _, py, _, h, _⟩ := h
    simp at h⟩

theorem witness_SecondDrawRestoresFrame :
    (1#4 : Nibble) ≠ 15#4 ∧ (2#4 : Nibble) ≠ 15#4 ∧
    ({ start [] with i := 4081 } : State).i.toNat + (15#4).toNat - 1 ≤ 4095 ∧
    Runs (.draw 1 2 15) { start [] with i := 4081 } (fun _ => True) :=
  ⟨by decide, by decide, by decide, _, rfl, trivial⟩

theorem witness_RenderEmittedByCompletedDisplaySteps :
    let s := at_ (start []) 0x00E0
    s.Ready ∧ s.fetch = .ok .clearScreen ∧ ∃ t, step s = .next t ∧ t.fault = none ∧ t.renders ≠ s.renders :=
  ⟨⟨rfl, rfl, .inl rfl⟩, by decide, _, rfl, by decide, List.cons_ne_nil _ _⟩

/-- The same for a Draw of no rows. -/
theorem witness_RenderEmittedByDraw :
    let s := at_ (start []) 0xD120
    s.Ready ∧ s.fetch = .ok (.draw 1 2 0) ∧ ∃ t, step s = .next t ∧ t.fault = none ∧ t.renders ≠ s.renders :=
  ⟨⟨rfl, rfl, .inl rfl⟩, by decide, _, rfl, by decide, List.cons_ne_nil _ _⟩

/-- For `KeySkipsTestPressedKey` and `AwaitKeySpinsUntilPressed`: key 15 pressed; key 15 not pressed; the byte 16, which names no key. -/
theorem witness_KeyInstructions :
    let pressed (s : State) := (s.reg 0).toNat ≤ 15 ∧ s.keys.getLsbD (s.reg 0).toNat = true
    pressed { start [15] with keys := 0x8000 } ∧ ¬ pressed { start [15] with keys := 0x7FFF } ∧
    ¬ pressed { start [16] with keys := 0xFFFF } := by decide

theorem witness_TickDecrementsBothTimers :
    ({ State.reset with dt := 0, st := 255, schedule := [.tick] } : State).schedule = .tick :: [] := rfl

theorem witness_PressAndReleaseChangeOneKey :
    ({ State.reset with schedule := [.press 15, .tick] } : State).schedule = .press 15 :: [.tick] ∧
    ({ State.reset with schedule := [.release 0] } : State).schedule = .release 0 :: [] := ⟨rfl, rfl⟩

theorem witness_TurnsAreTakenInOrder :
    (turn { start [] with schedule := [.tick, .stop] } id).isSome = true ∧
    (turn (at_ (start []) 0x1200) id).isSome = true := by
  decide

theorem witness_StartAndStopSetRunLatch :
    ({ State.reset with schedule := [.start, .stop] } : State).schedule = .start :: [.stop] ∧
    ({ State.reset with schedule := [.stop] } : State).schedule = .stop :: [] := ⟨rfl, rfl⟩

theorem witness_ResetPlacesRomAt512 :
    let rom : List Byte := List.replicate 3584 0xFF
    rom.length ≤ 3584 ∧ ({ start [] with schedule := [.reset rom] } : State).schedule = .reset rom :: [] ∧
      3583 < rom.length ∧ 2 ≤ rom.length :=
  ⟨Nat.le_of_eq List.length_replicate, rfl, Nat.lt_of_lt_of_eq (by decide) List.length_replicate.symm,
    Nat.le_trans (by decide) (Nat.le_of_eq List.length_replicate.symm)⟩

theorem witness_ResetClearsEverythingElse :
    let rom : List Byte := []
    rom.length ≤ 3584 ∧ ({ start [1] with schedule := [.reset rom] } : State).schedule = .reset rom :: [] ∧
      79 < font.length := ⟨by decide, rfl, by decide⟩

theorem witness_OverlongRomIsRefused :
    let rom : List Byte := List.replicate 3585 0
    3584 < rom.length ∧ ({ State.reset with schedule := [.reset rom] } : State).schedule = .reset rom :: [] :=
  ⟨Nat.lt_of_lt_of_eq (by decide) List.length_replicate.symm, rfl⟩

/-- A step from a state that meets the invariant with `pc` at its bound: 0xFFF + 0xFF from `Bnnn`. -/
theorem witness_InvariantKeptByEveryStep :
    ∃ s t, State.Inv s ∧ step s = .next t ∧ t.pc = 0x10FE :=
  ⟨at_ (start [0xFF]) 0xBFFF, _, ⟨by decide, by decide, fun k _ h => absurd h (Nat.not_lt_zero k)⟩, rfl, by decide⟩

theorem witness_OnlyStoresChangeMemory :
    Runs (.dumpRegs 15) { startVF 0 0 1 with i := 4080 } (fun t => t.read 4095 ≠ (startVF 0 0 1).read 4095) ∧
    Runs (.storeBCD 0) { start [9] with i := 4093 } (fun t => t.read 4095 ≠ (start [9]).read 4095) :=
  ⟨⟨_, rfl, by decide⟩, ⟨_, rfl, by decide⟩⟩

theorem witness_OnlyDisplayInstructionsChangeFrame :
    let s := at_ { start [] with fb := 1 } 0x00E0
    ∃ t, step s = .next t ∧ t.fb ≠ s.fb := ⟨_, rfl, by decide +kernel⟩

theorem witness_InstructionsKeepHostOwnedState :
    Runs (.setDelay 0) (start [1]) (fun t => t.dt ≠ (start [1]).dt) ∧
    Runs (.setSound 0) (start [1]) (fun t => t.st ≠ (start [1]).st) := ⟨⟨_, rfl, by decide⟩, ⟨_, rfl, by decide⟩⟩

theorem witness_TimersFallBetweenSets :
    (∃ t, step (at_ (start [255]) 0xF015) = .next t ∧ (start [255]).dt.toNat < t.dt.toNat) ∧
    ∃ t, step (at_ (start [255]) 0xF018) = .next t ∧ (start [255]).st.toNat < t.st.toNat :=
  ⟨⟨_, rfl, by decide⟩, ⟨_, rfl, by decide⟩⟩

theorem witness_OnlyFlagInstructionsWriteVF :
    Runs (.add 0 1) (start [255, 1]) (fun t => t.reg 15#4 ≠ (start [255, 1]).reg 15#4) ∧
    Runs (.getDelay 15#4) { start [] with dt := 1 } (fun t => t.reg 15#4 ≠ (start []).reg 15#4) :=
  ⟨⟨_, rfl, by decide⟩, ⟨_, rfl, by decide⟩⟩

theorem witness_TickCommutesWithTimerFreeInstructions :
    (∀ x, Instr.call 0x300 ≠ .getDelay x ∧ Instr.call 0x300 ≠ .setDelay x ∧ Instr.call 0x300 ≠ .setSound x) ∧
    Runs (.call 0x300) { start [] with dt := 1, st := 1 } (fun t => t.dt = 1) :=
  ⟨fun _ => ⟨nofun, nofun, nofun⟩, _, rfl, rfl⟩

theorem witness_KeysSeenByKeyInstructionsOnly :
    (∀ x, Instr.call 0x300 ≠ .skipKeyPressed x ∧ Instr.call 0x300 ≠ .skipKeyNotPressed x ∧
      Instr.call 0x300 ≠ .awaitKey x) ∧ Runs (.call 0x300) (start []) (fun t => t.keys = 0) :=
  ⟨fun _ => ⟨nofun, nofun, nofun⟩, _, rfl, rfl⟩

theorem witness_FrameSeenByCollisionFlagOnly :
    Runs (.draw 0 0 0) (start []) (fun _ => True) ∧ Runs .clearScreen (start []) (fun _ => True) :=
  ⟨⟨_, rfl, trivial⟩, ⟨_, rfl, trivial⟩⟩

theorem witness_ParkedStepChangesNothing :
    let s : State := { at_ (start []) 0x1200 with schedule := [.engine, .press 1] }
    s.Ready ∧ s.Parked := ⟨⟨rfl, rfl, .inr ⟨_, rfl⟩⟩, 0x200, by decide, by decide⟩

/-- An instruction of each class, and each that redirects. -/
theorem witness_PcAdvancesByClass :
    (start []).fault = none ∧ Runs (.setConst 0 1) (start []) (fun t => t.fault = none) ∧
    Runs (.skipEqConst 0 0) (start []) (fun t => t.fault = none) ∧
    Runs (.awaitKey 0) (start []) (fun t => t.fault = none) ∧
    Runs .ret { start [] with sp := 16 } (fun t => t.fault = none) ∧
    Runs (.jump 0xFFF) (start []) (fun t => t.fault = none) ∧
    Runs (.call 0xFFF) { start [] with sp := 15 } (fun t => t.fault = none) ∧
    Runs (.jumpPlusV0 0xFFF) (start [0xFF]) (fun t => t.fault = none) :=
  ⟨rfl, ⟨_, rfl, rfl⟩, ⟨_, rfl, rfl⟩, ⟨_, rfl, rfl⟩, ⟨_, rfl, rfl⟩, ⟨_, rfl, rfl⟩, ⟨_, rfl, rfl⟩, ⟨_, rfl, rfl⟩⟩

/-- Its conditions hold and fail: a skip, the other key skip, and the wait. -/
theorem witness_PcAdvancesByCondition :
    let s : State := { start [15] with keys := 0x8000 }
    s.Condition (.skipEqConst 0 15) ∧ ¬ s.Condition (.skipEqConst 0 16) ∧
    ¬ s.Condition (.skipKeyNotPressed 0) ∧ s.Condition (.skipKeyNotPressed 1) ∧
    s.Condition (.awaitKey 0) ∧ ¬ s.Condition (.awaitKey 1) := by
  unfold State.Condition State.KeyHeld
  decide

end Sys2Proof.Tests
end

section
/-! Control transfer (`41_control_flow.md`): the words of the format `A`, what each update of `pc` and of the call
stack leaves unchanged, one equation per outcome of the four instructions, and the obligations on them. -/

namespace Sys2Proof.Machine

/-! ### Words of the format `A` (R92) -/

/-- A word of the format `A` as a number: the high digit, then `nnn`. -/
theorem ofNat_eq_wordA (a : Nibble) (b : Addr) : BitVec.ofNat 16 (a.toNat * 4096 + b.toNat) = wordA a b := by
  apply BitVec.eq_of_toNat_eq
  have ha := a.isLt
  have hb := b.isLt
  have hw : (wordA a b).toNat = a.toNat * 4096 + b.toNat := by
    rw [wordA, BitVec.toNat_append, ← Nat.shiftLeft_add_eq_or_of_lt hb, Nat.shiftLeft_eq]
  rw [hw, BitVec.toNat_ofNat, Nat.mod_eq_of_lt (by omega)]

/-- A number with the high digit `a` stands for the instruction its word of the format `A` decodes to. -/
theorem wordIs_of_wordA {base : Nat} {a : Nibble} {nnn : Addr} {i : Instr} (hbase : base = a.toNat * 4096)
    (h : decodeWord (wordA a nnn) = .ok i) : WordIs (base + nnn.toNat) i := by
  rw [WordIs, hbase, ofNat_eq_wordA, h]

theorem decodeWord_jump (nnn : Addr) : decodeWord (wordA 0x1 nnn) = .ok (.jump nnn) := by
  simp [decodeWord]

theorem decodeWord_call (nnn : Addr) : decodeWord (wordA 0x2 nnn) = .ok (.call nnn) := by
  simp [decodeWord]

theorem decodeWord_jumpPlusV0 (nnn : Addr) : decodeWord (wordA 0xB nnn) = .ok (.jumpPlusV0 nnn) := by
  simp [decodeWord]

/-! ### Zero extension (R93) -/

@[simp] theorem toNat_zextAddr (nnn : Addr) : (zextAddr nnn).toNat = nnn.toNat :=
  BitVec.toNat_setWidth_of_le (by decide)

@[simp] theorem toNat_zextByte (b : Byte) : (zextByte b).toNat = b.toNat :=
  BitVec.toNat_setWidth_of_le (by decide)

/-- The sum of an address field and a byte fits in 16 bits, so it is reduced nowhere. -/
theorem toNat_zextAddr_add_zextByte (nnn : Addr) (b : Byte) :
    (zextAddr nnn + zextByte b).toNat = nnn.toNat + b.toNat := by
  have hn := nnn.isLt
  have hb := b.isLt
  rw [BitVec.toNat_add, toNat_zextAddr, toNat_zextByte, Nat.mod_eq_of_lt (by omega)]

/-! ### Frames -/

theorem State.Same.trans {s t u : State} {c : Component} (h : s.Same t c) (h' : t.Same u c) : s.Same u c := by
  cases c <;> exact Eq.trans h' h

/-- A jump by itself touches `pc` only. -/
theorem State.sameBut_setPc (s : State) (w : Word) : s.SameBut (s.setPc w) fun c => c = .pc := by
  intro c hc
  cases c with
  | pc => exact absurd rfl hc
  | _ => rfl

/-- A jump at the end of a change adds `pc` to what the change may touch. -/
theorem State.SameBut.setPc {s t : State} {may : Component → Prop} (h : s.SameBut t may) (w : Word) :
    s.SameBut (t.setPc w) fun c => c = .pc ∨ may c := by
  intro c hc
  obtain ⟨hpc, hmay⟩ := not_or.mp hc
  exact (h c hmay).trans (t.sameBut_setPc w c hpc)

/-! ### The call stack (R27) -/

/-- The state after a push into a free entry. -/
def State.pushed (s : State) (w : Word) (h : s.sp.val < Config.stackDepth) : State :=
  { s with stack := s.stack.set s.sp.val w h, sp := ⟨s.sp.val + 1, Nat.succ_lt_succ h⟩ }

/-- The state after a pop; the popped entry keeps its bits. -/
def State.popped (s : State) : State :=
  { s with sp := ⟨s.sp.val - 1, by have := s.sp.isLt; omega⟩ }

/-- The entry on top of a stack that is not empty. -/
def State.top (s : State) (h : 0 < s.sp.val) : Word := s.stack[s.sp.val - 1]'(by have := s.sp.isLt; omega)

theorem push_eq_pushed {s : State} (h : s.sp.val < Config.stackDepth) (w : Word) : s.push w = .ok (s.pushed w h) :=
  push_ok h w

theorem pop_eq_popped {s : State} (h : 0 < s.sp.val) : s.pop = .ok (s.top h, s.popped) := pop_ok h

theorem getElem_pushed_self (s : State) (w : Word) (h : s.sp.val < Config.stackDepth) :
    (s.pushed w h).stack[s.sp.val] = w :=
  Vector.getElem_set_self h

/-- A push touches the depth and the entry it fills. -/
theorem State.sameBut_pushed (s : State) (w : Word) (h : s.sp.val < Config.stackDepth) :
    s.SameBut (s.pushed w h) fun c => c = .depth ∨ c = .stackEntry ⟨s.sp.val, h⟩ := by
  intro c hc
  cases c with
  | depth => exact absurd (.inl rfl) hc
  | stackEntry k =>
    have hk : s.sp.val ≠ k.val := fun e => hc (.inr (congrArg Component.stackEntry (Fin.ext e.symm)))
    exact Vector.getElem_set_ne h k.isLt hk
  | _ => rfl

/-- A pop touches the depth only. -/
theorem State.sameBut_popped (s : State) : s.SameBut s.popped fun c => c = .depth := by
  intro c hc
  cases c with
  | depth => exact absurd rfl hc
  | _ => rfl

/-! ### The instructions -/

theorem exec_jump (nnn : Addr) (s : State) : exec (.jump nnn) s = .next (s.setPc (zextAddr nnn)) := rfl

theorem exec_jumpPlusV0 (nnn : Addr) (s : State) :
    exec (.jumpPlusV0 nnn) s = .next (s.setPc (zextAddr nnn + zextByte (s.reg 0))) := rfl

theorem exec_ret_ok {s : State} (h : 0 < s.sp.val) : exec .ret s = .next (s.popped.setPc (s.top h)) := by
  show execReturn s = _
  rw [execReturn, pop_eq_popped h]

theorem exec_ret_empty {s : State} (h : s.sp.val = 0) : exec .ret s = .next (s.raise .stackUnderflow) := by
  show execReturn s = _
  rw [execReturn, pop_empty h]

theorem exec_call_ok {s : State} (h : s.sp.val < Config.stackDepth) (nnn : Addr) :
    exec (.call nnn) s = .next ((s.pushed (s.pc + 2) h).setPc (zextAddr nnn)) := by
  show execCall nnn s = _
  rw [execCall, push_eq_pushed h]

theorem exec_call_full {s : State} (h : s.sp.val = Config.stackDepth) (nnn : Addr) :
    exec (.call nnn) s = .next (s.raise .stackOverflow) := by
  show execCall nnn s = _
  rw [execCall, push_full h]

/-! ### The obligations -/

/-- Settles O14: a Return is a pop followed by a jump to the popped entry. -/
theorem returnPopsIntoPc : Obligations.ReturnPopsIntoPc := by
  refine ⟨rfl, fun s h => exec_ret_empty h, fun s h => ?_⟩
  exact ⟨_, exec_ret_ok h, rfl, rfl, s.sameBut_popped.setPc _⟩

/-- Settles O16: a Call is a push of `pc + 2` followed by a jump. -/
theorem callPushesNextAddress : Obligations.CallPushesNextAddress := by
  intro s nnn
  refine ⟨wordIs_of_wordA rfl (decodeWord_call nnn), fun h => exec_call_full h nnn, fun h => ?_⟩
  exact ⟨_, exec_call_ok h nnn, getElem_pushed_self s _ h, rfl, toNat_zextAddr nnn, (s.sameBut_pushed _ h).setPc _⟩

/-- Settles O17: the sum of at most 0xFFF and 0xFF fits in `pc`, so neither width reduces it. -/
theorem jumpPlusV0AddsUnreduced : Obligations.JumpPlusV0AddsUnreduced := by
  intro s nnn
  refine ⟨wordIs_of_wordA rfl (decodeWord_jumpPlusV0 nnn), _, exec_jumpPlusV0 nnn s, ?_, s.sameBut_setPc _⟩
  exact toNat_zextAddr_add_zextByte nnn (s.reg 0)

/-- Settles O15: the zero-extended address field is the next `pc`. -/
theorem jumpSetsPc : Obligations.JumpSetsPc := by
  intro s nnn
  exact ⟨wordIs_of_wordA rfl (decodeWord_jump nnn), _, exec_jump nnn s, toNat_zextAddr nnn, s.sameBut_setPc _⟩

end Sys2Proof.Machine
end

section
/-! Conditional skips on registers (`42_skips.md`): the words of the formats `XK`, `XYN` and `XY`, the decoding of the
four skips and of the register forms with a nonzero low nibble, the advance of a skip, and the obligation on them. -/

namespace Sys2Proof.Machine

/-! ### Words of the formats `XK`, `XYN` and `XY` (R92) -/

/-- A word of the format `XK` as a number: the base of its high digit `a`, then `x`, then `nn`. -/
theorem ofNat_eq_wordXK {base : Nat} {a x : Nibble} {nn : Byte} (hbase : base = a.toNat * 4096) :
    BitVec.ofNat 16 (base + 256 * x.toNat + nn.toNat) = wordXK a x nn := by
  apply BitVec.eq_of_toNat_eq
  have ha := a.isLt
  have hx := x.isLt
  have hnn := nn.isLt
  have hw : (wordXK a x nn).toNat = (a.toNat * 16 + x.toNat) * 256 + nn.toNat := by
    rw [wordXK, BitVec.toNat_append, BitVec.toNat_append, ← Nat.shiftLeft_add_eq_or_of_lt hx,
      ← Nat.shiftLeft_add_eq_or_of_lt hnn, Nat.shiftLeft_eq, Nat.shiftLeft_eq]
  rw [hw, BitVec.toNat_ofNat, Nat.mod_eq_of_lt (by omega)]
  omega

/-- A word of the format `XYN` as a number: one of the format `XK` whose byte is `16 * y + n`. -/
theorem ofNat_eq_wordXYN {base : Nat} {a x y n : Nibble} (hbase : base = a.toNat * 4096) :
    BitVec.ofNat 16 (base + 256 * x.toNat + 16 * y.toNat + n.toNat) = wordXYN a x y n := by
  have hlow : (y ++ n).toNat = 16 * y.toNat + n.toNat := by
    rw [BitVec.toNat_append, ← Nat.shiftLeft_add_eq_or_of_lt n.isLt, Nat.shiftLeft_eq, Nat.mul_comm]
  rw [wordXYN_eq, ← ofNat_eq_wordXK hbase, hlow, ← Nat.add_assoc]

/-- A number with the high digit `a` stands for the instruction its word of the format `XK` decodes to. -/
theorem wordIs_of_wordXK {base : Nat} {a x : Nibble} {nn : Byte} {i : Instr} (hbase : base = a.toNat * 4096)
    (h : decodeWord (wordXK a x nn) = .ok i) : WordIs (base + 256 * x.toNat + nn.toNat) i := by
  rw [WordIs, ofNat_eq_wordXK hbase, h]

/-- The same for the format `XY`, whose base holds the high digit `a` and the sub-opcode `n`. -/
theorem wordIs_of_wordXY {base : Nat} {a x y n : Nibble} {i : Instr} (hbase : base = a.toNat * 4096 + n.toNat)
    (h : decodeWord (wordXYN a x y n) = .ok i) : WordIs (base + 256 * x.toNat + 16 * y.toNat) i := by
  have hnum : base + 256 * x.toNat + 16 * y.toNat = a.toNat * 4096 + 256 * x.toNat + 16 * y.toNat + n.toNat := by
    omega
  rw [WordIs, hnum, ofNat_eq_wordXYN rfl, h]

/-! ### Decoding the skips (R94, R98) -/

theorem decodeWord_skipEqConst (x : Nibble) (nn : Byte) : decodeWord (wordXK 0x3 x nn) = .ok (.skipEqConst x nn) := by
  simp [decodeWord]

theorem decodeWord_skipNeqConst (x : Nibble) (nn : Byte) :
    decodeWord (wordXK 0x4 x nn) = .ok (.skipNeqConst x nn) := by
  simp [decodeWord]

theorem decodeWord_group5 (x y n : Nibble) :
    decodeWord (wordXYN 0x5 x y n) = decodeSkipReg .skipEqReg (wordXYN 0x5 x y n) := by
  simp [decodeWord]

theorem decodeWord_group9 (x y n : Nibble) :
    decodeWord (wordXYN 0x9 x y n) = decodeSkipReg .skipNeqReg (wordXYN 0x9 x y n) := by
  simp [decodeWord]

theorem decodeSkipReg_zero (make : Nibble → Nibble → Instr) (a x y : Nibble) :
    decodeSkipReg make (wordXYN a x y 0) = .ok (make x y) := by
  simp [decodeSkipReg]

theorem decodeSkipReg_nonzero (make : Nibble → Nibble → Instr) (a x y : Nibble) {n : Nibble} (hn : n ≠ 0) :
    decodeSkipReg make (wordXYN a x y n) = .error (.unknownOpcode (wordXYN a x y n)) := by
  rw [decodeSkipReg, fieldN_wordXYN]
  exact if_neg hn

theorem decodeWord_skipEqReg (x y : Nibble) : decodeWord (wordXYN 0x5 x y 0) = .ok (.skipEqReg x y) :=
  (decodeWord_group5 x y 0).trans (decodeSkipReg_zero .skipEqReg 0x5 x y)

theorem decodeWord_skipNeqReg (x y : Nibble) : decodeWord (wordXYN 0x9 x y 0) = .ok (.skipNeqReg x y) :=
  (decodeWord_group9 x y 0).trans (decodeSkipReg_zero .skipNeqReg 0x9 x y)

/-- In the groups 5 and 9 a nonzero low nibble decodes to no instruction. -/
theorem decodeWord_skipReg_nonzero (x y : Nibble) {n : Nibble} (hn : n ≠ 0) {base : Nat}
    (hbase : base ∈ [0x5000, 0x9000]) :
    decodeWord (BitVec.ofNat 16 (base + 256 * x.toNat + 16 * y.toNat + n.toNat)) =
      .error (.unknownOpcode (BitVec.ofNat 16 (base + 256 * x.toNat + 16 * y.toNat + n.toNat))) := by
  obtain h5 | h9 : base = 0x5000 ∨ base = 0x9000 := by simpa using hbase
  · rw [ofNat_eq_wordXYN (a := 0x5) h5, decodeWord_group5, decodeSkipReg_nonzero _ _ _ _ hn]
  · rw [ofNat_eq_wordXYN (a := 0x9) h9, decodeWord_group9, decodeSkipReg_nonzero _ _ _ _ hn]

/-! ### The instructions -/

/-- A skip on a Boolean test sets `pc` by the condition the test decides, and touches nothing else (R124). -/
theorem State.skipIf_eq (s : State) {c : Bool} {P : Prop} [Decidable P] (h : c = true ↔ P) :
    s.skipIf c = { s with pc := if P then s.pc + 4 else s.pc + 2 } := by
  rw [State.skipIf, State.setPc, if_congr h rfl rfl]

theorem exec_skipEqConst (x : Nibble) (nn : Byte) (s : State) :
    exec (.skipEqConst x nn) s = .next { s with pc := if s.reg x = nn then s.pc + 4 else s.pc + 2 } :=
  congrArg Host.Outcome.next (s.skipIf_eq beq_iff_eq)

theorem exec_skipNeqConst (x : Nibble) (nn : Byte) (s : State) :
    exec (.skipNeqConst x nn) s = .next { s with pc := if s.reg x ≠ nn then s.pc + 4 else s.pc + 2 } :=
  congrArg Host.Outcome.next (s.skipIf_eq bne_iff_ne)

theorem exec_skipEqReg (x y : Nibble) (s : State) :
    exec (.skipEqReg x y) s = .next { s with pc := if s.reg x = s.reg y then s.pc + 4 else s.pc + 2 } :=
  congrArg Host.Outcome.next (s.skipIf_eq beq_iff_eq)

theorem exec_skipNeqReg (x y : Nibble) (s : State) :
    exec (.skipNeqReg x y) s = .next { s with pc := if s.reg x ≠ s.reg y then s.pc + 4 else s.pc + 2 } :=
  congrArg Host.Outcome.next (s.skipIf_eq bne_iff_ne)

/-! ### The obligation -/

/-- Settles O19: each word decodes by its group, and each skip is `State.skipIf` on a test that decides its
condition. -/
theorem registerSkipsAdvanceByFourOrTwo : Obligations.RegisterSkipsAdvanceByFourOrTwo := by
  intro s x y nn
  refine ⟨wordIs_of_wordXK rfl (decodeWord_skipEqConst x nn), wordIs_of_wordXK rfl (decodeWord_skipNeqConst x nn),
    wordIs_of_wordXY rfl (decodeWord_skipEqReg x y), wordIs_of_wordXY rfl (decodeWord_skipNeqReg x y), ?_,
    exec_skipEqConst x nn s, exec_skipNeqConst x nn s, exec_skipEqReg x y s, exec_skipNeqReg x y s⟩
  intro n hn base hbase
  exact decodeWord_skipReg_nonzero x y hn hbase

end Sys2Proof.Machine
end

section
/-! Register and arithmetic instructions (`43_register_alu.md`): the words of group 8, what `State.result` and
`State.resultFlag` leave in the state, the arithmetic of the results and flags, one equation per instruction, and the
obligations on them. -/

namespace Sys2Proof.Machine

/-! ### Decoding (R94, R98) -/

theorem decodeWord_setConst (x : Nibble) (nn : Byte) : decodeWord (wordXK 0x6 x nn) = .ok (.setConst x nn) := by
  simp [decodeWord]

theorem decodeWord_addConst (x : Nibble) (nn : Byte) : decodeWord (wordXK 0x7 x nn) = .ok (.addConst x nn) := by
  simp [decodeWord]

theorem decodeWord_setReg (x y : Nibble) : decodeWord (wordXYN 0x8 x y 0x0) = .ok (.setReg x y) := by
  simp [decodeWord, decodeGroup8]

theorem decodeWord_or (x y : Nibble) : decodeWord (wordXYN 0x8 x y 0x1) = .ok (.or x y) := by
  simp [decodeWord, decodeGroup8]

theorem decodeWord_and (x y : Nibble) : decodeWord (wordXYN 0x8 x y 0x2) = .ok (.and x y) := by
  simp [decodeWord, decodeGroup8]

theorem decodeWord_xor (x y : Nibble) : decodeWord (wordXYN 0x8 x y 0x3) = .ok (.xor x y) := by
  simp [decodeWord, decodeGroup8]

theorem decodeWord_add (x y : Nibble) : decodeWord (wordXYN 0x8 x y 0x4) = .ok (.add x y) := by
  simp [decodeWord, decodeGroup8]

theorem decodeWord_sub (x y : Nibble) : decodeWord (wordXYN 0x8 x y 0x5) = .ok (.sub x y) := by
  simp [decodeWord, decodeGroup8]

theorem decodeWord_shiftRight (x y : Nibble) : decodeWord (wordXYN 0x8 x y 0x6) = .ok (.shiftRight x y) := by
  simp [decodeWord, decodeGroup8]

theorem decodeWord_subReverse (x y : Nibble) : decodeWord (wordXYN 0x8 x y 0x7) = .ok (.subReverse x y) := by
  simp [decodeWord, decodeGroup8]

theorem decodeWord_shiftLeft (x y : Nibble) : decodeWord (wordXYN 0x8 x y 0xE) = .ok (.shiftLeft x y) := by
  simp [decodeWord, decodeGroup8]

/-! ### Frames of register writes -/

/-- A register write touches that register only. -/
theorem State.sameBut_setReg (s : State) (k : Nibble) (b : Byte) : s.SameBut (s.setReg k b) fun c => c = .reg k := by
  intro c hc
  cases c with
  | reg j => exact s.reg_setReg_ne (fun e => hc (congrArg Component.reg e)) b
  | _ => rfl

/-- A register write at the end of a change adds that register to what the change may touch. -/
theorem State.SameBut.setReg {s t : State} {may : Component → Prop} (h : s.SameBut t may) (k : Nibble) (b : Byte) :
    s.SameBut (t.setReg k b) fun c => may c ∨ c = .reg k := by
  intro c hc
  obtain ⟨hmay, hreg⟩ := not_or.mp hc
  exact (h c hmay).trans (t.sameBut_setReg k b c hreg)

/-! ### A result without a flag (R160 to R165) -/

@[simp] theorem State.reg_result_self (s : State) (x : Nibble) (b : Byte) : (s.result x b).reg x = b :=
  s.reg_setReg_self x b

@[simp] theorem State.pc_result (s : State) (x : Nibble) (b : Byte) : (s.result x b).pc = s.pc + 2 := rfl

theorem State.sameBut_result (s : State) (x : Nibble) (b : Byte) :
    s.SameBut (s.result x b) fun c => c = .pc ∨ c = .reg x :=
  (s.sameBut_setReg x b).setPc _

/-! ### A result with a flag (R166 to R171) -/

@[simp] theorem State.pc_resultFlag (s : State) (x : Nibble) (b : Byte) (flag : Bool) :
    (s.resultFlag x b flag).pc = s.pc + 2 := rfl

/-- The result stands in `V[x]` unless `x = 15`, where the flag takes its place. -/
theorem State.reg_resultFlag_of_ne (s : State) {x : Nibble} (hx : x ≠ 15#4) (b : Byte) (flag : Bool) :
    (s.resultFlag x b flag).reg x = b := by
  rw [State.resultFlag, State.reg_advance, State.reg_setVF, if_neg hx, State.reg_setReg_self]

/-- The flag stands in `VF` for every `x`, since it is written last. -/
theorem State.reg_resultFlag_vf (s : State) (x : Nibble) (b : Byte) (flag : Bool) :
    (s.resultFlag x b flag).reg 15#4 = if flag then 1 else 0 := by
  rw [State.resultFlag, State.reg_advance, State.reg_setVF, if_pos rfl]

/-- The flag as the condition it decides. -/
theorem State.reg_resultFlag_vf_of_iff (s : State) (x : Nibble) (b : Byte) {flag : Bool} {P : Prop} [Decidable P]
    (h : flag = true ↔ P) : (s.resultFlag x b flag).reg 15#4 = if P then 1 else 0 := by
  rw [State.reg_resultFlag_vf, if_congr h rfl rfl]

/-- The flag as a number. -/
theorem State.toNat_reg_resultFlag_vf (s : State) (x : Nibble) (b : Byte) (flag : Bool) :
    ((s.resultFlag x b flag).reg 15#4).toNat = flag.toNat := by
  rw [State.reg_resultFlag_vf]
  cases flag <;> rfl

theorem State.sameBut_resultFlag (s : State) (x : Nibble) (b : Byte) (flag : Bool) :
    s.SameBut (s.resultFlag x b flag) fun c => c = .pc ∨ c = .reg x ∨ c = .reg 15#4 :=
  ((s.sameBut_setReg x b).setReg 15#4 _).setPc _

/-! ### The arithmetic of results and flags (R172) -/

theorem carry_iff (a b : Byte) : carry a b = true ↔ 255 < a.toNat + b.toNat := decide_eq_true_iff

theorem noBorrow_iff (a b : Byte) : noBorrow a b = true ↔ b.toNat ≤ a.toNat := decide_eq_true_iff

/-- A byte difference is the difference of the numbers, with 256 added when it borrows. -/
theorem toNat_byte_sub (a b : Byte) :
    (a - b).toNat = if b.toNat ≤ a.toNat then a.toNat - b.toNat else a.toNat + 256 - b.toNat := by
  have ha := a.isLt
  have hb := b.isLt
  rw [BitVec.toNat_sub]
  split <;> omega

/-- The bit a right shift moves out is the remainder of the halving. -/
theorem toNat_lowBit (b : Byte) : (lowBit b).toNat = b.toNat % 2 := by
  rw [lowBit, BitVec.getLsbD, Nat.toNat_testBit, pow_zero, Nat.div_one]

/-- The bit a left shift moves out is the carry of the doubling. -/
theorem toNat_highBit (b : Byte) : (highBit b).toNat = b.toNat / 128 := by
  have hb := b.isLt
  rw [highBit, BitVec.getLsbD, Nat.toNat_testBit]
  omega

theorem toNat_byte_ushiftRight_one (b : Byte) : (b >>> 1).toNat = b.toNat / 2 := by
  rw [BitVec.toNat_ushiftRight, Nat.shiftRight_eq_div_pow, pow_one]

theorem toNat_byte_shiftLeft_one (b : Byte) : (b <<< 1).toNat = 2 * b.toNat % 256 := by
  rw [BitVec.toNat_shiftLeft, Nat.shiftLeft_eq, pow_one, Nat.mul_comm]

/-! ### The instructions -/

section
variable (x y : Nibble) (nn : Byte) (s : State)

theorem exec_setConst : exec (.setConst x nn) s = .next (s.result x nn) := rfl

theorem exec_addConst : exec (.addConst x nn) s = .next (s.result x (s.reg x + nn)) := rfl

theorem exec_setReg : exec (.setReg x y) s = .next (s.result x (s.reg y)) := rfl

theorem exec_or : exec (.or x y) s = .next (s.result x (s.reg x ||| s.reg y)) := rfl

theorem exec_and : exec (.and x y) s = .next (s.result x (s.reg x &&& s.reg y)) := rfl

theorem exec_xor : exec (.xor x y) s = .next (s.result x (s.reg x ^^^ s.reg y)) := rfl

theorem exec_add :
    exec (.add x y) s = .next (s.resultFlag x (s.reg x + s.reg y) (carry (s.reg x) (s.reg y))) := rfl

theorem exec_sub :
    exec (.sub x y) s = .next (s.resultFlag x (s.reg x - s.reg y) (noBorrow (s.reg x) (s.reg y))) := rfl

theorem exec_subReverse :
    exec (.subReverse x y) s = .next (s.resultFlag x (s.reg y - s.reg x) (noBorrow (s.reg y) (s.reg x))) := rfl

theorem exec_shiftRight :
    exec (.shiftRight x y) s = .next (s.resultFlag x (s.reg y >>> 1) (lowBit (s.reg y))) := rfl

theorem exec_shiftLeft :
    exec (.shiftLeft x y) s = .next (s.resultFlag x (s.reg y <<< 1) (highBit (s.reg y))) := rfl

end

/-! ### The obligations -/

/-- Settles O21: a result without a flag whose value is the byte sum. -/
theorem addConstWrapsWithoutFlag : Obligations.AddConstWrapsWithoutFlag := by
  intro s x nn
  refine ⟨wordIs_of_wordXK rfl (decodeWord_addConst x nn), _, exec_addConst x nn s, ?_, s.pc_result x _,
    s.sameBut_result x _⟩
  rw [State.reg_result_self, BitVec.toNat_add]

/-- Settles O22: results without a flag, whose bits are those of the byte operation. -/
theorem logicInstructionsActBitwise : Obligations.LogicInstructionsActBitwise := by
  intro s x y
  refine ⟨wordIs_of_wordXY rfl (decodeWord_or x y), wordIs_of_wordXY rfl (decodeWord_and x y),
    wordIs_of_wordXY rfl (decodeWord_xor x y), ⟨_, exec_or x y s, s.pc_result x _, fun k => ?_, s.sameBut_result x _⟩,
    ⟨_, exec_and x y s, s.pc_result x _, fun k => ?_, s.sameBut_result x _⟩,
    ⟨_, exec_xor x y s, s.pc_result x _, fun k => ?_, s.sameBut_result x _⟩⟩
  · rw [State.reg_result_self, BitVec.getLsbD_or]
  · rw [State.reg_result_self, BitVec.getLsbD_and]
  · rw [State.reg_result_self, BitVec.getLsbD_xor]

/-- Settles O23: a result with a flag, the byte sum and its carry. -/
theorem addSetsCarry : Obligations.AddSetsCarry := by
  intro s x y
  refine ⟨wordIs_of_wordXY rfl (decodeWord_add x y), _, exec_add x y s, fun hx => ?_,
    s.reg_resultFlag_vf_of_iff x _ (carry_iff _ _), s.pc_resultFlag x _ _, s.sameBut_resultFlag x _ _⟩
  rw [s.reg_resultFlag_of_ne hx, BitVec.toNat_add]

/-- Settles O24: both are a result with a flag, a byte difference and its no-borrow, with the operands exchanged. -/
theorem subtractionsSetNoBorrow : Obligations.SubtractionsSetNoBorrow := by
  intro s x y
  refine ⟨wordIs_of_wordXY rfl (decodeWord_sub x y), wordIs_of_wordXY rfl (decodeWord_subReverse x y),
    ⟨_, exec_sub x y s, fun hx => ?_, s.reg_resultFlag_vf_of_iff x _ (noBorrow_iff _ _), s.pc_resultFlag x _ _,
      s.sameBut_resultFlag x _ _⟩,
    ⟨_, exec_subReverse x y s, fun hx => ?_, s.reg_resultFlag_vf_of_iff x _ (noBorrow_iff _ _), s.pc_resultFlag x _ _,
      s.sameBut_resultFlag x _ _⟩⟩
  · rw [s.reg_resultFlag_of_ne hx, toNat_byte_sub]
  · rw [s.reg_resultFlag_of_ne hx, toNat_byte_sub]

/-- Settles O25: a shift by one halves or doubles `Vy`, and the flag is the remainder or the carry of that. -/
theorem shiftsMoveVyByOne : Obligations.ShiftsMoveVyByOne := by
  intro s x y
  refine ⟨wordIs_of_wordXY rfl (decodeWord_shiftRight x y), wordIs_of_wordXY rfl (decodeWord_shiftLeft x y),
    ⟨_, exec_shiftRight x y s, fun hx => ?_, ?_, s.pc_resultFlag x _ _, s.sameBut_resultFlag x _ _⟩,
    ⟨_, exec_shiftLeft x y s, fun hx => ?_, ?_, s.pc_resultFlag x _ _, s.sameBut_resultFlag x _ _⟩⟩
  · rw [s.reg_resultFlag_of_ne hx, toNat_byte_ushiftRight_one]
  · rw [s.toNat_reg_resultFlag_vf, toNat_lowBit]
  · rw [s.reg_resultFlag_of_ne hx, toNat_byte_shiftLeft_one]
  · rw [s.toNat_reg_resultFlag_vf, toNat_highBit]

/-- Settles O20: results without a flag, the constant or the register as it was. -/
theorem setConstAndSetRegCopy : Obligations.SetConstAndSetRegCopy := by
  intro s x y nn
  exact ⟨wordIs_of_wordXK rfl (decodeWord_setConst x nn), wordIs_of_wordXY rfl (decodeWord_setReg x y),
    ⟨_, exec_setConst x nn s, s.reg_result_self x _, s.pc_result x _, s.sameBut_result x _⟩,
    ⟨_, exec_setReg x y s, s.reg_result_self x _, s.pc_result x _, s.sameBut_result x _⟩⟩

end Sys2Proof.Machine
end

section
/-! Index register and memory (`44_index_memory.md`): the words of the format `XF`, the frames of an index write, a
stored block and a loaded block, one equation per outcome of the six instructions, and the obligations on them. -/

namespace Sys2Proof.Machine

/-! ### Decoding (R94, R99) -/

/-- A number with the high digit `a` and the function code `nn` stands for the instruction its word of the format `XF`
decodes to. -/
theorem wordIs_of_wordXF {base : Nat} {a x : Nibble} {nn : Byte} {i : Instr} (hbase : base = a.toNat * 4096 + nn.toNat)
    (h : decodeWord (wordXK a x nn) = .ok i) : WordIs (base + 256 * x.toNat) i := by
  have hnum : base + 256 * x.toNat = a.toNat * 4096 + 256 * x.toNat + nn.toNat := by omega
  rw [hnum]
  exact wordIs_of_wordXK rfl h

theorem decodeWord_setIndex (nnn : Addr) : decodeWord (wordA 0xA nnn) = .ok (.setIndex nnn) := by
  simp [decodeWord]

theorem decodeWord_addToIndex (x : Nibble) : decodeWord (wordXK 0xF x 0x1E) = .ok (.addToIndex x) := by
  simp [decodeWord, decodeGroupF]

theorem decodeWord_setIndexFont (x : Nibble) : decodeWord (wordXK 0xF x 0x29) = .ok (.setIndexFont x) := by
  simp [decodeWord, decodeGroupF]

theorem decodeWord_storeBCD (x : Nibble) : decodeWord (wordXK 0xF x 0x33) = .ok (.storeBCD x) := by
  simp [decodeWord, decodeGroupF]

theorem decodeWord_dumpRegs (x : Nibble) : decodeWord (wordXK 0xF x 0x55) = .ok (.dumpRegs x) := by
  simp [decodeWord, decodeGroupF]

theorem decodeWord_loadRegs (x : Nibble) : decodeWord (wordXK 0xF x 0x65) = .ok (.loadRegs x) := by
  simp [decodeWord, decodeGroupF]

/-! ### The arithmetic of indices and digits -/

theorem indexOverflow_iff (i : Word) (a : Byte) : indexOverflow i a = true ↔ 0x0FFF < i.toNat + a.toNat :=
  decide_eq_true_iff

theorem toNat_add_zextByte (i : Word) (b : Byte) : (i + zextByte b).toNat = (i.toNat + b.toNat) % 65536 := by
  rw [BitVec.toNat_add, toNat_zextByte]

theorem toNat_low_nibble (b : Byte) : (b.extractLsb' 0 4).toNat = b.toNat % 16 := by
  rw [BitVec.extractLsb'_toNat, Nat.shiftRight_zero]

/-- Every glyph address fits in `I` (R182). -/
theorem toNat_ofNat_glyphAddress (d : Nibble) : (BitVec.ofNat 16 (glyphAddress d)).toNat = fontBase + 5 * d.toNat := by
  have hd := d.isLt
  rw [BitVec.toNat_ofNat, Nat.mod_eq_of_lt]
  · rfl
  · simp only [glyphAddress, fontBase]
    omega

theorem toNat_hundreds (a : Byte) : (a / 100).toNat = a.toNat / 100 := BitVec.toNat_udiv

theorem toNat_tens (a : Byte) : (a / 10 % 10).toNat = a.toNat / 10 % 10 := by
  rw [BitVec.toNat_umod, BitVec.toNat_udiv]
  rfl

theorem toNat_ones (a : Byte) : (a % 10).toNat = a.toNat % 10 := BitVec.toNat_umod

/-! ### Writing `I` -/

/-- An index write touches `I` only. -/
theorem State.sameBut_setI (s : State) (w : Word) : s.SameBut (s.setI w) fun c => c = .index := by
  intro c hc
  cases c with
  | index => exact absurd rfl hc
  | _ => rfl

/-! ### Storing and loading a block at `I` -/

/-- The state after an instruction that stores the bytes `bs` at `I` (R184, R185). -/
def State.stored (s : State) (bs : List Byte) : State := (s.setMem (s.mem.writeList s.base bs)).advance

/-- The state after an instruction that loads `V[0]` to `V[x]` from `I` (R186). -/
def State.loaded (s : State) (x : Nibble) : State := (s.setV (loadBlock s.mem s.base s.v (blockLength x))).advance

@[simp] theorem State.pc_stored (s : State) (bs : List Byte) : (s.stored bs).pc = s.pc + 2 := rfl

@[simp] theorem State.pc_loaded (s : State) (x : Nibble) : (s.loaded x).pc = s.pc + 2 := rfl

/-- A stored block inside memory is read back byte by byte. -/
theorem State.read_stored {s : State} (hm : s.mem.wf = true) {bs : List Byte} (hb : s.i.toNat + bs.length ≤ 4096)
    {k : Nat} (hk : k < bs.length) : (s.stored bs).read (s.i.toNat + k) = bs[k] :=
  Memory.read_writeList_inside hm s.base bs hb k hk

/-- A block of writes from `I` up touches the cells of the block only. -/
theorem State.sameBut_setMem_writeList (s : State) (bs : List Byte) :
    s.SameBut (s.setMem (s.mem.writeList s.base bs)) fun c => ∃ k < bs.length, c = .cell (s.i.toNat + k) := by
  intro c hc
  cases c with
  | cell a =>
    refine Memory.read_writeList_outside s.mem s.base bs (or_iff_not_imp_left.mpr fun hlow => ?_)
    by_contra hhigh
    have hbase : s.base = s.i.toNat := rfl
    exact hc ⟨a - s.i.toNat, by omega, congrArg Component.cell (by omega)⟩
  | _ => rfl

theorem State.sameBut_stored (s : State) (bs : List Byte) :
    s.SameBut (s.stored bs) fun c => c = .pc ∨ ∃ k < bs.length, c = .cell (s.i.toNat + k) :=
  (s.sameBut_setMem_writeList bs).setPc _

/-- A loaded block holds the memory bytes up to `V[x]` and the old registers above. -/
theorem State.reg_loaded (s : State) (x k : Nibble) :
    (s.loaded x).reg k = if k.toNat ≤ x.toNat then s.read (s.i.toNat + k.toNat) else s.reg k := by
  have h := getElem_loadBlock s.mem s.base s.v (blockLength x) k.toNat k.isLt
  exact h.trans (if_congr Nat.lt_succ_iff rfl rfl)

/-- A loaded block touches `V[0]` to `V[x]` and `pc`. -/
theorem State.sameBut_loaded (s : State) (x : Nibble) :
    s.SameBut (s.loaded x) fun c => c = .pc ∨ ∃ k : Nibble, k.toNat ≤ x.toNat ∧ c = .reg k := by
  intro c hc
  cases c with
  | pc => exact absurd (.inl rfl) hc
  | reg k =>
    have hk : ¬ k.toNat ≤ x.toNat := fun h => hc (.inr ⟨k, h, rfl⟩)
    exact (s.reg_loaded x k).trans (if_neg hk)
  | _ => rfl

/-! ### The instructions -/

theorem exec_setIndex (nnn : Addr) (s : State) : exec (.setIndex nnn) s = .next (s.setI (zextAddr nnn)).advance := rfl

theorem exec_addToIndex (x : Nibble) (s : State) :
    exec (.addToIndex x) s =
      .next ((s.setI (s.i + zextByte (s.reg x))).setVF (indexOverflow s.i (s.reg x))).advance := rfl

theorem exec_setIndexFont (x : Nibble) (s : State) :
    exec (.setIndexFont x) s =
      .next (s.setI (BitVec.ofNat 16 (glyphAddress ((s.reg x).extractLsb' 0 4)))).advance := rfl

/-- An access at `I` that reaches past memory raises OutOfBounds and does nothing else (R212). -/
theorem afterCheck_base_outside {s : State} (access : State) {len : Nat} (h0 : 0 < len) (h : 4096 < s.i.toNat + len) :
    afterCheck s s.base len access = .next (s.outOfBoundsAt s.i) :=
  afterCheck_outside h0 h

theorem exec_storeBCD_inside {s : State} (h : s.i.toNat + 2 ≤ 4095) (x : Nibble) :
    exec (.storeBCD x) s = .next (s.stored (digits (s.reg x))) :=
  afterCheck_inside (.inr (Nat.succ_le_succ h))

theorem exec_storeBCD_outside {s : State} (h : 4095 < s.i.toNat + 2) (x : Nibble) :
    exec (.storeBCD x) s = .next (s.outOfBoundsAt s.i) :=
  afterCheck_base_outside _ (Nat.succ_pos 2) (Nat.succ_lt_succ h)

theorem exec_dumpRegs_inside {s : State} {x : Nibble} (h : s.i.toNat + x.toNat ≤ 4095) :
    exec (.dumpRegs x) s = .next (s.stored (s.block x)) :=
  afterCheck_inside (.inr (Nat.succ_le_succ h))

theorem exec_dumpRegs_outside {s : State} {x : Nibble} (h : 4095 < s.i.toNat + x.toNat) :
    exec (.dumpRegs x) s = .next (s.outOfBoundsAt s.i) :=
  afterCheck_base_outside _ (Nat.succ_pos x.toNat) (Nat.succ_lt_succ h)

theorem exec_loadRegs_inside {s : State} {x : Nibble} (h : s.i.toNat + x.toNat ≤ 4095) :
    exec (.loadRegs x) s = .next (s.loaded x) :=
  afterCheck_inside (.inr (Nat.succ_le_succ h))

theorem exec_loadRegs_outside {s : State} {x : Nibble} (h : 4095 < s.i.toNat + x.toNat) :
    exec (.loadRegs x) s = .next (s.outOfBoundsAt s.i) :=
  afterCheck_base_outside _ (Nat.succ_pos x.toNat) (Nat.succ_lt_succ h)

/-! ### The obligations -/

/-- Settles O28: an index write of the 16-bit sum, then a flag write. -/
theorem addToIndexFlagsTwelveBitOverflow : Obligations.AddToIndexFlagsTwelveBitOverflow := by
  intro s x
  refine ⟨wordIs_of_wordXF rfl (decodeWord_addToIndex x), _, exec_addToIndex x s, toNat_add_zextByte _ _, ?_, rfl,
    ((s.sameBut_setI _).setReg 15#4 _).setPc _⟩
  rw [State.reg_advance, State.reg_setVF, if_pos rfl, if_congr (indexOverflow_iff _ _) rfl rfl]

/-- Settles O29: an index write of a glyph address, which fits in 16 bits. -/
theorem setIndexFontSelectsGlyph : Obligations.SetIndexFontSelectsGlyph := by
  intro s x
  refine ⟨wordIs_of_wordXF rfl (decodeWord_setIndexFont x), _, exec_setIndexFont x s, ?_, rfl,
    (s.sameBut_setI _).setPc _⟩
  rw [← toNat_low_nibble]
  exact toNat_ofNat_glyphAddress _

/-- Settles O30: the range check, then the three digits stored as a block. -/
theorem storeBCDWritesThreeDigits : Obligations.StoreBCDWritesThreeDigits := by
  intro s x
  refine ⟨wordIs_of_wordXF rfl (decodeWord_storeBCD x), fun h => exec_storeBCD_outside h x, fun hm h => ?_⟩
  have hread (k : Nat) (hk : k < 3) : (s.stored (digits (s.reg x))).read (s.i.toNat + k) = (digits (s.reg x))[k] :=
    State.read_stored (bs := digits (s.reg x)) hm (Nat.succ_le_succ h) hk
  refine ⟨_, exec_storeBCD_inside h x, ?_, ?_, ?_, s.pc_stored _, s.sameBut_stored (digits (s.reg x))⟩
  · exact (congrArg BitVec.toNat (hread 0 (by decide))).trans (toNat_hundreds _)
  · exact (congrArg BitVec.toNat (hread 1 (by decide))).trans (toNat_tens _)
  · exact (congrArg BitVec.toNat (hread 2 (by decide))).trans (toNat_ones _)

/-- Settles O31: the range check, then the registers stored as a block. -/
theorem dumpRegsStoresBlock : Obligations.DumpRegsStoresBlock := by
  intro s x
  refine ⟨wordIs_of_wordXF rfl (decodeWord_dumpRegs x), exec_dumpRegs_outside, fun hm h => ?_⟩
  refine ⟨_, exec_dumpRegs_inside h, fun k hk => ?_, s.pc_stored _, ?_⟩
  · have hlen : k.toNat < (s.block x).length := by rw [length_block]; omega
    rw [State.read_stored hm (by rw [length_block]; omega) hlen, getElem_block s x k.toNat hlen k.isLt]
    rfl
  · have hframe := s.sameBut_stored (s.block x)
    simpa only [length_block, Nat.lt_succ_iff] using hframe

/-- Settles O32: the range check, then the loaded block. -/
theorem loadRegsLoadsBlock : Obligations.LoadRegsLoadsBlock := by
  intro s x
  refine ⟨wordIs_of_wordXF rfl (decodeWord_loadRegs x), exec_loadRegs_outside, fun h => ?_⟩
  exact ⟨_, exec_loadRegs_inside h, fun k hk => (s.reg_loaded x k).trans (if_pos hk), s.pc_loaded x,
    s.sameBut_loaded x⟩

/-- Settles O27: an index write of the zero-extended address field. -/
theorem setIndexLoadsNnn : Obligations.SetIndexLoadsNnn := by
  intro s nnn
  exact ⟨wordIs_of_wordA rfl (decodeWord_setIndex nnn), _, exec_setIndex nnn s, toNat_zextAddr nnn, rfl,
    (s.sameBut_setI _).setPc _⟩

end Sys2Proof.Machine
end

section
/-! Display instructions (`45_display.md`): the frames of a framebuffer write and of a Render event, the equation of
ClearScreen, and the obligation on it. -/

namespace Sys2Proof.Machine

/-! ### Frames of the framebuffer and the Render Port -/

/-- A framebuffer write touches the 2048 pixels only; above them every frame reads as 0. -/
theorem State.sameBut_setFB (s : State) (f : Frame) :
    s.SameBut (s.setFB f) fun c => ∃ k < 2048, c = .pixel k := by
  intro c hc
  cases c with
  | pixel k =>
    have hk : 2048 ≤ k := not_lt.mp fun h => hc ⟨k, h, rfl⟩
    exact (BitVec.getLsbD_of_ge f k hk).trans (BitVec.getLsbD_of_ge s.fb k hk).symm
  | _ => rfl

/-- A Render event touches the history only. -/
theorem State.sameBut_emitRender (s : State) : s.SameBut s.emitRender fun c => c = .renders := by
  intro c hc
  cases c with
  | renders => exact absurd rfl hc
  | _ => rfl

/-- A Render event at the end of a change adds the history to what the change may touch. -/
theorem State.SameBut.emitRender {s t : State} {may : Component → Prop} (h : s.SameBut t may) :
    s.SameBut t.emitRender fun c => c = .renders ∨ may c := by
  intro c hc
  obtain ⟨hrenders, hmay⟩ := not_or.mp hc
  exact (h c hmay).trans (t.sameBut_emitRender c hrenders)

/-! ### The instruction -/

theorem exec_clearScreen (s : State) : exec .clearScreen s = .next (s.setFB 0).emitRender.advance := rfl

/-! ### The obligation -/

/-- Settles O34: a write of the zero frame, a Render event of it and an advance, whatever the frame was. -/
theorem clearScreenClearsAndRenders : Obligations.ClearScreenClearsAndRenders := by
  refine ⟨rfl, fun s => ⟨_, exec_clearScreen s, fun k => ?_, rfl, rfl, (s.sameBut_setFB 0).emitRender.setPc _⟩⟩
  exact BitVec.getLsbD_zero

end Sys2Proof.Machine
end

section
/-! Keypad and timer instructions (`46_keypad_timers.md`): the words of the groups E and F, the frames of the timer
writes, the key test as a condition, one equation per instruction, and the obligations on them. -/

namespace Sys2Proof.Machine

/-! ### Decoding (R94, R99) -/

theorem decodeWord_skipKeyPressed (x : Nibble) : decodeWord (wordXK 0xE x 0x9E) = .ok (.skipKeyPressed x) := by
  simp [decodeWord, decodeGroupE]

theorem decodeWord_skipKeyNotPressed (x : Nibble) :
    decodeWord (wordXK 0xE x 0xA1) = .ok (.skipKeyNotPressed x) := by
  simp [decodeWord, decodeGroupE]

theorem decodeWord_getDelay (x : Nibble) : decodeWord (wordXK 0xF x 0x07) = .ok (.getDelay x) := by
  simp [decodeWord, decodeGroupF]

theorem decodeWord_awaitKey (x : Nibble) : decodeWord (wordXK 0xF x 0x0A) = .ok (.awaitKey x) := by
  simp [decodeWord, decodeGroupF]

theorem decodeWord_setDelay (x : Nibble) : decodeWord (wordXK 0xF x 0x15) = .ok (.setDelay x) := by
  simp [decodeWord, decodeGroupF]

theorem decodeWord_setSound (x : Nibble) : decodeWord (wordXK 0xF x 0x18) = .ok (.setSound x) := by
  simp [decodeWord, decodeGroupF]

/-! ### Frames of the timer writes -/

/-- A delay timer write touches `DT` only. -/
theorem State.sameBut_setDT (s : State) (b : Byte) : s.SameBut (s.setDT b) fun c => c = .delayTimer := by
  intro c hc
  cases c with
  | delayTimer => exact absurd rfl hc
  | _ => rfl

/-- A sound timer write touches `ST` only. -/
theorem State.sameBut_setST (s : State) (b : Byte) : s.SameBut (s.setST b) fun c => c = .soundTimer := by
  intro c hc
  cases c with
  | soundTimer => exact absurd rfl hc
  | _ => rfl

/-! ### The key test (R200) -/

/-- The test of a key number decides whether that key is held. -/
theorem State.pressed_iff (s : State) (v : Byte) : s.pressed v = true ↔ s.KeyHeld v := by
  rw [State.pressed, Bool.and_eq_true, decide_eq_true_iff, State.KeyHeld]

theorem State.pressed_of_keyHeld {s : State} {v : Byte} (h : s.KeyHeld v) : s.pressed v = true :=
  (s.pressed_iff v).mpr h

theorem State.pressed_of_not_keyHeld {s : State} {v : Byte} (h : ¬ s.KeyHeld v) : s.pressed v = false :=
  Bool.eq_false_iff.mpr fun hp => h ((s.pressed_iff v).mp hp)

/-! ### The instructions -/

section
variable (x : Nibble) (s : State)

theorem exec_skipKeyPressed : exec (.skipKeyPressed x) s = .next (s.skipIf (s.pressed (s.reg x))) := rfl

theorem exec_skipKeyNotPressed : exec (.skipKeyNotPressed x) s = .next (s.skipIf (!s.pressed (s.reg x))) := rfl

theorem exec_awaitKey : exec (.awaitKey x) s = .next (if s.pressed (s.reg x) then s.advance else s) := rfl

theorem exec_getDelay : exec (.getDelay x) s = .next (s.result x s.dt) := rfl

theorem exec_setDelay : exec (.setDelay x) s = .next (s.setDT (s.reg x)).advance := rfl

theorem exec_setSound : exec (.setSound x) s = .next (s.setST (s.reg x)).advance := rfl

end

/-! ### The obligations -/

/-- Settles O38: the two skips are `State.skipIf` on the key test and on its negation, so the case of the key decides
both. -/
theorem keySkipsTestPressedKey : Obligations.KeySkipsTestPressedKey := by
  intro s x
  refine ⟨wordIs_of_wordXF rfl (decodeWord_skipKeyPressed x), wordIs_of_wordXF rfl (decodeWord_skipKeyNotPressed x),
    fun hheld => ?_, fun hnot => ?_⟩
  · rw [exec_skipKeyPressed, exec_skipKeyNotPressed, State.pressed_of_keyHeld hheld]
    exact ⟨rfl, rfl⟩
  · rw [exec_skipKeyPressed, exec_skipKeyNotPressed, State.pressed_of_not_keyHeld hnot]
    exact ⟨rfl, rfl⟩

/-- Settles O39: an advance when the key test holds, the state itself when it fails. -/
theorem awaitKeySpinsUntilPressed : Obligations.AwaitKeySpinsUntilPressed := by
  intro s x
  refine ⟨wordIs_of_wordXF rfl (decodeWord_awaitKey x), fun hheld => ?_, fun hnot => ?_⟩
  · rw [exec_awaitKey, State.pressed_of_keyHeld hheld]
    rfl
  · rw [exec_awaitKey, State.pressed_of_not_keyHeld hnot]
    rfl

/-- Settles O40: a result without a flag, and two timer writes, each with an advance. -/
theorem timerInstructionsMoveTimers : Obligations.TimerInstructionsMoveTimers := by
  intro s x
  exact ⟨wordIs_of_wordXF rfl (decodeWord_getDelay x), wordIs_of_wordXF rfl (decodeWord_setDelay x),
    wordIs_of_wordXF rfl (decodeWord_setSound x),
    ⟨_, exec_getDelay x s, s.reg_result_self x _, s.pc_result x _, s.sameBut_result x _⟩,
    ⟨_, exec_setDelay x s, rfl, rfl, (s.sameBut_setDT _).setPc _⟩,
    ⟨_, exec_setSound x s, rfl, rfl, (s.sameBut_setST _).setPc _⟩⟩

end Sys2Proof.Machine
end

section
/-! The opcode map and the decoder (`30_encoding.md` sections 3 to 5): a decoded word is the encoding of its
instruction, so it matches a row, and a word that matches none is UnknownOpcode. -/

namespace Sys2Proof.Laws.EncodesItsRow

/-- Every instruction's word matches the row of its mnemonic (R94, R96). -/
theorem statement : ∀ i : Instr, Statement i
  | .clearScreen => clearScreen
  | .ret => ret
  | .jump nnn => jump nnn
  | .call nnn => call nnn
  | .skipEqConst x nn => skipEqConst x nn
  | .skipNeqConst x nn => skipNeqConst x nn
  | .skipEqReg x y => skipEqReg x y
  | .setConst x nn => setConst x nn
  | .addConst x nn => addConst x nn
  | .setReg x y => setReg x y
  | .or x y => or x y
  | .and x y => and x y
  | .xor x y => xor x y
  | .add x y => add x y
  | .sub x y => sub x y
  | .shiftRight x y => shiftRight x y
  | .subReverse x y => subReverse x y
  | .shiftLeft x y => shiftLeft x y
  | .skipNeqReg x y => skipNeqReg x y
  | .setIndex nnn => setIndex nnn
  | .jumpPlusV0 nnn => jumpPlusV0 nnn
  | .randMask x nn => randMask x nn
  | .draw x y n => draw x y n
  | .skipKeyPressed x => skipKeyPressed x
  | .skipKeyNotPressed x => skipKeyNotPressed x
  | .getDelay x => getDelay x
  | .awaitKey x => awaitKey x
  | .setDelay x => setDelay x
  | .setSound x => setSound x
  | .addToIndex x => addToIndex x
  | .setIndexFont x => setIndexFont x
  | .storeBCD x => storeBCD x
  | .dumpRegs x => dumpRegs x
  | .loadRegs x => loadRegs x

end Sys2Proof.Laws.EncodesItsRow

namespace Sys2Proof

/-! ### A word from its fields (R92) -/

section
variable {w : Word} {a : Nibble} (ha : fieldN1 w = a)
include ha

theorem wordA_of_fields : wordA a (fieldNNN w) = w := by
  rw [← ha, wordA, fieldN1, fieldNNN,
    BitVec.extractLsb'_append_extractLsb'_eq_extractLsb' (show 12 = 0 + 12 from rfl)]
  exact extract_all w

theorem wordXK_of_fields {nn : Byte} (hnn : fieldNN w = nn) : wordXK a (fieldX w) nn = w := by
  rw [← ha, ← hnn, wordXK, fieldN1, fieldX, fieldNN,
    BitVec.extractLsb'_append_extractLsb'_eq_extractLsb' (show 12 = 8 + 4 from rfl),
    BitVec.extractLsb'_append_extractLsb'_eq_extractLsb' (show 8 = 0 + 8 from rfl)]
  exact extract_all w

theorem wordXYN_of_fields {n : Nibble} (hn : fieldN w = n) : wordXYN a (fieldX w) (fieldY w) n = w := by
  have hlow : fieldNN w = fieldY w ++ fieldN w :=
    (BitVec.extractLsb'_append_extractLsb'_eq_extractLsb' (show 4 = 0 + 4 from rfl)).symm
  rw [wordXYN_eq, ← hn]
  exact wordXK_of_fields ha hlow

end

/-! ### Encoding what a group of the decision tree decodes (R94, R97 to R99) -/

section
variable {w : Word} {i : Instr}

theorem encode_decodeGroup0 (h : decodeGroup0 w = .ok i) : encode i = w := by
  unfold decodeGroup0 at h
  split at h
  next hw => cases h; exact hw.symm
  next =>
    split at h
    next hw => cases h; exact hw.symm
    next => cases h

theorem encode_decodeGroup8 (ha : fieldN1 w = 0x8#4) (h : decodeGroup8 w = .ok i) : encode i = w := by
  unfold decodeGroup8 at h
  split at h <;> cases h <;> exact wordXYN_of_fields ha ‹_›

/-- The groups 5 and 9, whose instruction `make x y` is encoded with the low nibble 0. -/
theorem encode_decodeSkipReg {a : Nibble} {make : Nibble → Nibble → Instr} (ha : fieldN1 w = a)
    (hmake : ∀ x y, encode (make x y) = wordXYN a x y 0) (h : decodeSkipReg make w = .ok i) : encode i = w := by
  unfold decodeSkipReg at h
  split at h
  next hn => cases h; exact (hmake _ _).trans (wordXYN_of_fields ha hn)
  next => cases h

theorem encode_decodeGroupE (ha : fieldN1 w = 0xE#4) (h : decodeGroupE w = .ok i) : encode i = w := by
  unfold decodeGroupE at h
  split at h <;> cases h <;> exact wordXK_of_fields ha ‹_›

theorem encode_decodeGroupF (ha : fieldN1 w = 0xF#4) (h : decodeGroupF w = .ok i) : encode i = w := by
  unfold decodeGroupF at h
  split at h <;> cases h <;> exact wordXK_of_fields ha ‹_›

/-- The word that decodes to an instruction is that instruction's encoding (R106). -/
theorem encode_decodeWord (h : decodeWord w = .ok i) : encode i = w := by
  unfold decodeWord at h
  split at h
  next => exact encode_decodeGroup0 h
  next ha => cases h; exact wordA_of_fields ha
  next ha => cases h; exact wordA_of_fields ha
  next ha => cases h; exact wordXK_of_fields ha rfl
  next ha => cases h; exact wordXK_of_fields ha rfl
  next ha => exact encode_decodeSkipReg ha (fun _ _ => rfl) h
  next ha => cases h; exact wordXK_of_fields ha rfl
  next ha => cases h; exact wordXK_of_fields ha rfl
  next ha => exact encode_decodeGroup8 ha h
  next ha => exact encode_decodeSkipReg ha (fun _ _ => rfl) h
  next ha => cases h; exact wordA_of_fields ha
  next ha => cases h; exact wordA_of_fields ha
  next ha => cases h; exact wordXK_of_fields ha rfl
  next ha => cases h; exact wordXYN_of_fields ha rfl
  next ha => exact encode_decodeGroupE ha h
  next ha => exact encode_decodeGroupF ha h
  next => cases h

end

/-! ### Rows of the opcode map (R96) -/

theorem mem_of_findRow {rows : List OpcodeRow} {m : String} {r : OpcodeRow} (h : findRow rows m = some r) :
    r ∈ rows := by
  induction rows with
  | nil => cases h
  | cons r' rows ih =>
    unfold findRow at h
    split at h
    next => cases h; exact List.mem_cons_self
    next => exact List.mem_cons_of_mem r' (ih h)

/-- The word of an instruction matches a row. -/
theorem encode_matches_row (i : Instr) : ∃ r ∈ opcodeTable, encode i &&& r.mask = r.fixed := by
  have hrow := (Laws.EncodesItsRow.statement i).2
  split at hrow
  next r hr => exact ⟨r, mem_of_findRow hr, hrow⟩
  next => exact hrow.elim

/-- A word that matches no row is UnknownOpcode with the word (R95, R100). -/
theorem decodeWord_unmatched {w : Word} (h : ∀ r ∈ opcodeTable, w &&& r.mask ≠ r.fixed) :
    decodeWord w = .error (.unknownOpcode w) := by
  cases hd : decodeWord w with
  | error e => rw [Machine.decodeWord_error hd]
  | ok i =>
    obtain ⟨r, hr, hmatch⟩ := encode_matches_row i
    rw [encode_decodeWord hd] at hmatch
    exact absurd hmatch (h r hr)

end Sys2Proof
end

section
/-! The Step and the transitions of the other agents (`60_exceptions.md`): what an enabled Step does when the fetch
faults and when an instruction runs, what a Tick, a Press and a Release change, and the obligations on them. -/

namespace Sys2Proof

/-- The two instructions that hand the frame to the Render Port (R231). -/
def Instr.displays : Instr → Bool
  | .clearScreen | .draw _ _ _ => true
  | _ => false

theorem Instr.displays_iff (i : Instr) : i.displays = true ↔ i = .clearScreen ∨ ∃ x y n, i = .draw x y n := by
  cases i <;> simp [displays]

end Sys2Proof

namespace Sys2Proof.Machine

/-! ### The fetch (R211, R212) -/

/-- A fetch past the end of memory faults on its bounds. -/
theorem fetch_outside {s : State} (h : Config.memSize < s.pc.toNat + 2) :
    s.fetch = .error (.outOfBounds (BitVec.ofNat 16 (max s.pc.toNat Config.memSize))) := by
  rw [State.fetch, checkRange_outside (by decide) h]

/-- A fetch inside memory of a word that is no instruction faults on that word. -/
theorem fetch_unknownOpcode {s : State} (h : s.pc.toNat + 2 ≤ Config.memSize)
    (hd : decodeWord s.fetchWord = .error (.unknownOpcode s.fetchWord)) :
    s.fetch = .error (.unknownOpcode s.fetchWord) := by
  rw [State.fetch, checkRange_inside h, hd]

/-- The fetched instruction displays exactly when it is ClearScreen or Draw. -/
theorem fetch_displays_iff {s : State} {i : Instr} (h : s.fetch = .ok i) :
    i.displays = true ↔ s.fetch = .ok .clearScreen ∨ ∃ x y n, s.fetch = .ok (.draw x y n) := by
  simp [h, Instr.displays_iff]

/-! ### What an instruction can do to the fault latch and the Render Port -/

/-- An instruction that completes keeps the fault latch, and hands out the frame it leaves exactly when it is a
display instruction (R127, R231). -/
structure Completes (i : Instr) (s t : State) : Prop where
  fault : t.fault = s.fault
  renders : t.renders = if i.displays then ⟨t.fb, 64, 32⟩ :: s.renders else s.renders

/-- An instruction with a range check completes when its access would. -/
theorem afterCheck_raises_or_completes {i : Instr} {s access t : State} {addr len : Nat}
    (h : afterCheck s addr len access = .next t) (hc : Completes i s access) : (∃ f, t = s.raise f) ∨ Completes i s t := by
  obtain ⟨rfl, -⟩ | ⟨rfl, -⟩ := afterCheck_cases h
  · exact .inr hc
  · exact .inl ⟨_, rfl⟩

/-- An instruction raises a fault and changes the latch only, or completes (R127, R216). -/
theorem exec_cases {i : Instr} {s t : State} (h : exec i s = .next t) : (∃ f, t = s.raise f) ∨ Completes i s t := by
  cases i with
  | ret =>
    obtain h0 | h0 := Nat.eq_zero_or_pos s.sp.val
    · rw [exec_ret_empty h0] at h; cases h; exact .inl ⟨_, rfl⟩
    · rw [exec_ret_ok h0] at h; cases h; exact .inr ⟨rfl, rfl⟩
  | call nnn =>
    obtain hfree | hfull := Nat.lt_or_eq_of_le (Nat.le_of_lt_succ s.sp.isLt)
    · rw [exec_call_ok hfree] at h; cases h; exact .inr ⟨rfl, rfl⟩
    · rw [exec_call_full hfull] at h; cases h; exact .inl ⟨_, rfl⟩
  | draw x y n => exact afterCheck_raises_or_completes h ⟨rfl, rfl⟩
  | storeBCD x => exact afterCheck_raises_or_completes h ⟨rfl, rfl⟩
  | dumpRegs x => exact afterCheck_raises_or_completes h ⟨rfl, rfl⟩
  | loadRegs x => exact afterCheck_raises_or_completes h ⟨rfl, rfl⟩
  | awaitKey x =>
    rw [exec_awaitKey] at h
    split at h <;> cases h <;> exact .inr ⟨rfl, rfl⟩
  | _ => cases h; exact .inr ⟨rfl, rfl⟩

/-! ### The Engine's turn (R120, R216) -/

/-- On the Engine's turn only an enabled Step answers a next state. -/
theorem ready_of_step {s t : State} (turn : s.EnginesTurn) (h : step s = .next t) : s.Ready := by
  rw [step_enginesTurn turn] at h
  obtain ⟨hrun, hfault, -⟩ := engineStep_cases h
  exact ⟨hrun, hfault, turn⟩

section
variable {s : State} (hs : s.Ready)
include hs

/-- An enabled Step whose fetch faults enters that fault. -/
theorem step_fetch_error {f : FaultKind} (h : s.fetch = .error f) : step s = .next (s.afterTurn.raise f) :=
  (step_enginesTurn hs.enginesTurn).trans (engineStep_error hs.running hs.unfaulted h)

/-- An enabled Step raises a fault and changes the latch only, or completes the instruction it fetched; the turn is
used up (log 6). -/
theorem ready_step_cases {t : State} (h : step s = .next t) :
    (∃ f, t = s.afterTurn.raise f) ∨ ∃ i, s.fetch = .ok i ∧ Completes i s.afterTurn t := by
  rw [step_enginesTurn hs.enginesTurn] at h
  obtain ⟨-, -, ⟨f, -, ht⟩ | ⟨i, hi, hexec⟩⟩ := engineStep_cases h
  · exact .inl ⟨f, ht⟩
  · exact (exec_cases hexec).imp_right fun hc => ⟨i, hi, hc⟩

end

/-! ### The other agents' turns (R224, R228, R229, R232) -/

/-- The turn at the head of the schedule is taken in the state with that turn used up. -/
theorem step_of_schedule {s : State} {tn : Turn} {rest : List Turn} (h : s.schedule = tn :: rest) :
    step s = takeTurn tn s.afterTurn := by
  simp [step, nextTransition, State.afterTurn, h]

/-- Only the Engine writes to the Render Port. -/
theorem enginesTurn_or_renders_kept {s t : State} (h : step s = .next t) : s.EnginesTurn ∨ t.renders = s.renders := by
  obtain ⟨hnil, -⟩ | ⟨tn, rest, hsched, hturn⟩ := step_cases h
  · exact .inl (.inl hnil)
  · obtain ⟨rfl, -⟩ | ⟨-, rfl⟩ | ⟨k, -, rfl⟩ | ⟨k, -, rfl⟩ | ⟨-, rfl⟩ | ⟨-, rfl⟩ | ⟨rom, -, -, rfl⟩ :=
      takeTurn_cases hturn
    · exact .inl (.inr ⟨rest, hsched⟩)
    all_goals exact .inr rfl

/-- A frame over the state with the turn used up is a frame over the state itself, the schedule added. -/
theorem State.SameBut.of_afterTurn {s t : State} {may : Component → Prop} (h : s.afterTurn.SameBut t may) :
    s.SameBut t fun c => may c ∨ c = .schedule := by
  intro c hc
  obtain ⟨hmay, hsched⟩ := not_or.mp hc
  have hsame := h c hmay
  cases c with
  | schedule => exact absurd rfl hsched
  | _ => exact hsame

theorem State.sameBut_tick (s : State) : s.SameBut s.tick fun c => c = .delayTimer ∨ c = .soundTimer := by
  intro c hc
  cases c with
  | delayTimer => exact absurd (.inl rfl) hc
  | soundTimer => exact absurd (.inr rfl) hc
  | _ => rfl

theorem getLsbD_keyBit (k : Nibble) (j : Nat) : (keyBit k).getLsbD j = decide (j = k.toNat) := by
  rw [keyBit, BitVec.getLsbD_twoPow, decide_eq_true k.isLt, Bool.true_and, decide_eq_decide.mpr eq_comm]

theorem State.getLsbD_press (s : State) (k : Nibble) (j : Nat) :
    (s.press k).keys.getLsbD j = (s.keys.getLsbD j || decide (j = k.toNat)) := by
  rw [State.press_keys, BitVec.getLsbD_or, getLsbD_keyBit]

theorem State.getLsbD_release (s : State) (k : Nibble) (j : Nat) :
    (s.release k).keys.getLsbD j = (s.keys.getLsbD j && !decide (j = k.toNat)) := by
  rw [State.release_keys, BitVec.getLsbD_and, BitVec.getLsbD_not, getLsbD_keyBit]
  by_cases hj : j < 16
  · rw [decide_eq_true hj, Bool.true_and]
  · rw [BitVec.getLsbD_of_ge s.keys j (not_lt.mp hj), Bool.false_and, Bool.false_and]

theorem State.sameBut_press (s : State) (k : Nibble) : s.SameBut (s.press k) fun c => c = .key k.toNat := by
  intro c hc
  cases c with
  | key j =>
    have hj : j ≠ k.toNat := fun e => hc (congrArg Component.key e)
    exact (s.getLsbD_press k j).trans (by simp [hj])
  | _ => rfl

theorem State.sameBut_release (s : State) (k : Nibble) : s.SameBut (s.release k) fun c => c = .key k.toNat := by
  intro c hc
  cases c with
  | key j =>
    have hj : j ≠ k.toNat := fun e => hc (congrArg Component.key e)
    exact (s.getLsbD_release k j).trans (by simp [hj])
  | _ => rfl

/-! ### Draw past memory (R212) -/

theorem exec_draw_outside {s : State} {n : Nibble} (h0 : 0 < n.toNat) (h : 4095 < s.i.toNat + n.toNat - 1)
    (x y : Nibble) : exec (.draw x y n) s = .next (s.outOfBoundsAt s.i) :=
  afterCheck_base_outside _ h0 (by omega)

/-! ### The obligations -/

/-- Settles O9: a completed instruction keeps the latch, so a Step that sets it changes the latch only, and a set latch
disables the next Step. -/
theorem faultsArePrecise : Obligations.FaultsArePrecise := by
  intro s t f hs hstep hf
  refine ⟨?_, fun turn u hu => ?_⟩
  · obtain ⟨g, rfl⟩ | ⟨i, -, hc⟩ := ready_step_cases hs hstep
    · cases hf
      rfl
    · rw [hc.fault, State.afterTurn_fault, hs.unfaulted] at hf
      cases hf
  · have hnone := (ready_of_step turn hu).unfaulted
    rw [hf] at hnone
    cases hnone

/-- Settles O37: an enabled Step raises a fault, which hands out nothing, or completes its instruction, which hands out
the frame exactly when it is a display instruction; every other agent keeps the history. -/
theorem renderEmittedByCompletedDisplaySteps : Obligations.RenderEmittedByCompletedDisplaySteps := by
  refine ⟨fun s t turn hstep hnone hdisplay => ?_, fun s t hstep hne => ?_⟩
  · obtain ⟨f, rfl⟩ | ⟨i, hi, hc⟩ := ready_step_cases (ready_of_step turn hstep) hstep
    · cases hnone
    · have hd := (fetch_displays_iff hi).mpr hdisplay
      rw [hc.renders, if_pos hd, State.afterTurn_renders]
  · have turn := (enginesTurn_or_renders_kept hstep).resolve_right hne
    have hs := ready_of_step turn hstep
    obtain ⟨f, rfl⟩ | ⟨i, hi, hc⟩ := ready_step_cases hs hstep
    · exact absurd rfl hne
    · have hd : i.displays = true := by
        by_contra hd
        exact hne (hc.renders.trans (if_neg hd))
      exact ⟨hc.fault.trans hs.unfaulted, turn, (fetch_displays_iff hi).mp hd⟩

/-- Settles O41: a Tick is made in the state with its turn used up, and takes one off each timer. -/
theorem tickDecrementsBothTimers : Obligations.TickDecrementsBothTimers := by
  intro s rest h
  have hframe := s.afterTurn.sameBut_tick.of_afterTurn
  exact ⟨_, step_of_schedule h, toNat_tickDown s.dt, toNat_tickDown s.st, by simpa only [or_assoc] using hframe⟩

/-- Settles O42: a Press or a Release is made in the state with its turn used up, and writes one bit of the key set. -/
theorem pressAndReleaseChangeOneKey : Obligations.PressAndReleaseChangeOneKey := by
  intro s k rest
  refine ⟨fun h => ?_, fun h => ?_⟩
  · exact ⟨_, step_of_schedule h, (s.afterTurn.getLsbD_press k _).trans (by simp),
      (s.afterTurn.sameBut_press k).of_afterTurn⟩
  · exact ⟨_, step_of_schedule h, (s.afterTurn.getLsbD_release k _).trans (by simp),
      (s.afterTurn.sameBut_release k).of_afterTurn⟩

/-- Settles O8: a word that matches no row decodes to no instruction, so the fetch faults on it. -/
theorem unmatchedWordFaults : Obligations.UnmatchedWordFaults := by
  rintro s w hs hpc rfl hrows
  have hfetch := fetch_unknownOpcode (Nat.succ_le_succ hpc) (decodeWord_unmatched hrows)
  exact ⟨s.schedule.tail, step_fetch_error hs hfetch⟩

/-- Settles O10: the five range checks fail, and each failed check is the fault's entry. -/
theorem accessPastMemoryRaisesOutOfBounds : Obligations.AccessPastMemoryRaisesOutOfBounds := by
  intro s x y n
  refine ⟨fun hs h => ?_, fun h => exec_storeBCD_outside h x, exec_dumpRegs_outside, exec_loadRegs_outside,
    fun h0 h => exec_draw_outside h0 h x y⟩
  exact ⟨s.schedule.tail, step_fetch_error hs (fetch_outside (Nat.succ_lt_succ h))⟩

end Sys2Proof.Machine
end

section
/-! Reset (`70_reset_and_hazards.md` section 1): when it answers a next state, where its ROM lies in that state, and the
obligation on it. -/

namespace Sys2Proof.Machine

/-- A Reset whose ROM fits is made in the state with its turn used up (R250). -/
theorem step_reset_of_fits {s : State} {rom : List Byte} {rest : List Turn} (h : s.schedule = .reset rom :: rest)
    (hfits : rom.length ≤ Config.romMax) : step s = .next (s.afterTurn.hostReset rom) :=
  (step_of_schedule h).trans (if_pos hfits)

@[simp] theorem State.hostReset_pc (s : State) (rom : List Byte) : (s.hostReset rom).pc = 512 := rfl

/-- Memory after Reset is the reset contents with the ROM written from 512 up (R252). -/
theorem State.read_hostReset (s : State) (rom : List Byte) (a : Nat) :
    (s.hostReset rom).read a = (State.reset.mem.writeList 512 rom).read a := rfl

/-- A ROM that fits lies whole below the end of memory, so every byte of it is read back (R252). -/
theorem State.read_hostReset_rom (s : State) {rom : List Byte} (hfits : rom.length ≤ Config.romMax) {k : Nat}
    (hk : k < rom.length) : (s.hostReset rom).read (512 + k) = rom[k] := by
  have hend : 512 + rom.length ≤ Config.memSize := Nat.add_le_add_left hfits 512
  rw [s.read_hostReset, Memory.read_writeList_inside Memory.wf_reset 512 rom hend k hk]

/-- The first fetch after Reset reads the first two bytes of the ROM, the first as the high byte (R252). -/
theorem State.fetchWord_hostReset (s : State) {rom : List Byte} (hfits : rom.length ≤ Config.romMax)
    (h : 2 ≤ rom.length) : (s.hostReset rom).fetchWord = rom[0] ++ rom[1] :=
  congrArg₂ wordOfBytes (s.read_hostReset_rom hfits (k := 0) (by omega)) (s.read_hostReset_rom hfits (k := 1) h)

/-- Settles O44: a ROM of at most 3584 bytes fits, so the Reset is made and the ROM is read back from 512 on. -/
theorem resetPlacesRomAt512 : Obligations.ResetPlacesRomAt512 := fun s _ _ hfits h =>
  ⟨_, step_reset_of_fits h hfits, s.afterTurn.hostReset_pc _, fun _ hk => s.afterTurn.read_hostReset_rom hfits hk,
    s.afterTurn.fetchWord_hostReset hfits⟩

end Sys2Proof.Machine
end

section
/-! The round trip of the encoding (`30_encoding.md` section 5), the agreement of the decision tree with the opcode map
(sections 3 and 4), the words the assembler gives, and the obligations on them. -/

namespace Sys2Proof.Machine

/-! ### Decoding an encoding (R106) -/

theorem decodeWord_randMask (x : Nibble) (nn : Byte) : decodeWord (wordXK 0xC x nn) = .ok (.randMask x nn) := by
  simp [decodeWord]

theorem decodeWord_draw (x y n : Nibble) : decodeWord (wordXYN 0xD x y n) = .ok (.draw x y n) := by
  simp [decodeWord]

/-- Every instruction is what its word decodes to: one row of the opcode map per case. -/
theorem decodeWord_encode : ∀ i : Instr, decodeWord (encode i) = .ok i
  | .clearScreen => rfl
  | .ret => rfl
  | .jump nnn => decodeWord_jump nnn
  | .call nnn => decodeWord_call nnn
  | .skipEqConst x nn => decodeWord_skipEqConst x nn
  | .skipNeqConst x nn => decodeWord_skipNeqConst x nn
  | .skipEqReg x y => decodeWord_skipEqReg x y
  | .setConst x nn => decodeWord_setConst x nn
  | .addConst x nn => decodeWord_addConst x nn
  | .setReg x y => decodeWord_setReg x y
  | .or x y => decodeWord_or x y
  | .and x y => decodeWord_and x y
  | .xor x y => decodeWord_xor x y
  | .add x y => decodeWord_add x y
  | .sub x y => decodeWord_sub x y
  | .shiftRight x y => decodeWord_shiftRight x y
  | .subReverse x y => decodeWord_subReverse x y
  | .shiftLeft x y => decodeWord_shiftLeft x y
  | .skipNeqReg x y => decodeWord_skipNeqReg x y
  | .setIndex nnn => decodeWord_setIndex nnn
  | .jumpPlusV0 nnn => decodeWord_jumpPlusV0 nnn
  | .randMask x nn => decodeWord_randMask x nn
  | .draw x y n => decodeWord_draw x y n
  | .skipKeyPressed x => decodeWord_skipKeyPressed x
  | .skipKeyNotPressed x => decodeWord_skipKeyNotPressed x
  | .getDelay x => decodeWord_getDelay x
  | .awaitKey x => decodeWord_awaitKey x
  | .setDelay x => decodeWord_setDelay x
  | .setSound x => decodeWord_setSound x
  | .addToIndex x => decodeWord_addToIndex x
  | .setIndexFont x => decodeWord_setIndexFont x
  | .storeBCD x => decodeWord_storeBCD x
  | .dumpRegs x => decodeWord_dumpRegs x
  | .loadRegs x => decodeWord_loadRegs x

/-! ### The rows of the opcode map (R94, R96) -/

/-- The map has one row per mnemonic. -/
theorem findRow_of_mem {r : OpcodeRow} : r ∈ opcodeTable → findRow opcodeTable r.mnemonic = some r := by
  revert r
  decide

theorem mnemonic_of_findRow {rows : List OpcodeRow} {m : String} {r : OpcodeRow} (h : findRow rows m = some r) :
    r.mnemonic = m := by
  induction rows with
  | nil => cases h
  | cons r' rows ih =>
    unfold findRow at h
    split at h
    next hm => cases h; exact hm
    next => exact ih h

/-- Two rows whose fixed bits agree where both masks are set are one row. -/
theorem eq_of_compatible_rows {r r' : OpcodeRow} : r ∈ opcodeTable → r' ∈ opcodeTable →
    r.fixed &&& r'.mask = r'.fixed &&& r.mask → r = r' := by
  suffices h : ∀ r ∈ opcodeTable, ∀ r' ∈ opcodeTable, r.fixed &&& r'.mask = r'.fixed &&& r.mask → r = r' from
    fun hr hr' => h r hr r' hr'
  decide

/-- No word matches two rows. -/
theorem eq_of_word_matches_both {w : Word} {r r' : OpcodeRow} (hr : r ∈ opcodeTable) (hr' : r' ∈ opcodeTable)
    (h : w &&& r.mask = r.fixed) (h' : w &&& r'.mask = r'.fixed) : r = r' := by
  apply eq_of_compatible_rows hr hr'
  rw [← h, ← h', BitVec.and_assoc, BitVec.and_assoc, BitVec.and_comm r.mask]

/-- The word of an instruction matches the row that the map finds under the instruction's mnemonic. -/
theorem encode_matches_its_row (i : Instr) :
    ∃ r, findRow opcodeTable i.line.mnemonic = some r ∧ encode i &&& r.mask = r.fixed := by
  have hrow := (Laws.EncodesItsRow.statement i).2
  split at hrow
  next r hr => exact ⟨r, hr, hrow⟩
  next => exact hrow.elim

/-- The word of an instruction matches the row of its mnemonic and no other. -/
theorem encode_matches_iff (i : Instr) {r : OpcodeRow} (hr : r ∈ opcodeTable) :
    encode i &&& r.mask = r.fixed ↔ r.mnemonic = i.line.mnemonic := by
  obtain ⟨r', hfind, hmatch⟩ := encode_matches_its_row i
  constructor
  · intro h
    rw [eq_of_word_matches_both hr (mem_of_findRow hfind) h hmatch]
    exact mnemonic_of_findRow hfind
  · intro h
    have hsome := findRow_of_mem hr
    rw [h, hfind] at hsome
    cases hsome
    exact hmatch

/-! ### A word that matches a row decodes (R94, R95) -/

section
variable {w m : Word}

/-- A mask that keeps the high digit. -/
theorem fieldN1_and (hm : fieldN1 m = 0xF#4) : fieldN1 (w &&& m) = fieldN1 w := by
  rw [fieldN1, BitVec.extractLsb'_and, ← fieldN1, ← fieldN1, hm]
  exact BitVec.and_allOnes

/-- A mask that keeps the low digit. -/
theorem fieldN_and (hm : fieldN m = 0xF#4) : fieldN (w &&& m) = fieldN w := by
  rw [fieldN, BitVec.extractLsb'_and, ← fieldN, ← fieldN, hm]
  exact BitVec.and_allOnes

/-- A mask that keeps the low byte. -/
theorem fieldNN_and (hm : fieldNN m = 0xFF#8) : fieldNN (w &&& m) = fieldNN w := by
  rw [fieldNN, BitVec.extractLsb'_and, ← fieldNN, ← fieldNN, hm]
  exact BitVec.and_allOnes

variable {a n : Nibble} {code : Byte}

theorem decodes_of_matches_addr {make : Addr → Instr} (hmake : ∀ nnn, decodeWord (wordA a nnn) = .ok (make nnn))
    (h : w &&& 0xF000#16 = wordA a 0) : ∃ i, decodeWord w = .ok i := by
  have ha : fieldN1 w = a := by rw [← fieldN1_and (m := 0xF000#16) rfl, h, fieldN1_wordA]
  exact ⟨make (fieldNNN w), by rw [← hmake, wordA_of_fields ha]⟩

theorem decodes_of_matches_regByte {make : Nibble → Byte → Instr}
    (hmake : ∀ x nn, decodeWord (wordXK a x nn) = .ok (make x nn)) (h : w &&& 0xF000#16 = wordXK a 0 0) :
    ∃ i, decodeWord w = .ok i := by
  have ha : fieldN1 w = a := by rw [← fieldN1_and (m := 0xF000#16) rfl, h, fieldN1_wordXK]
  exact ⟨make (fieldX w) (fieldNN w), by rw [← hmake, wordXK_of_fields ha rfl]⟩

theorem decodes_of_matches_twoRegs {make : Nibble → Nibble → Instr}
    (hmake : ∀ x y, decodeWord (wordXYN a x y n) = .ok (make x y)) (h : w &&& 0xF00F#16 = wordXYN a 0 0 n) :
    ∃ i, decodeWord w = .ok i := by
  have ha : fieldN1 w = a := by rw [← fieldN1_and (m := 0xF00F#16) rfl, h, fieldN1_wordXYN]
  have hn : fieldN w = n := by rw [← fieldN_and (m := 0xF00F#16) rfl, h, fieldN_wordXYN]
  exact ⟨make (fieldX w) (fieldY w), by rw [← hmake, wordXYN_of_fields ha hn]⟩

theorem decodes_of_matches_twoRegsNibble {make : Nibble → Nibble → Nibble → Instr}
    (hmake : ∀ x y n, decodeWord (wordXYN a x y n) = .ok (make x y n)) (h : w &&& 0xF000#16 = wordXYN a 0 0 0) :
    ∃ i, decodeWord w = .ok i := by
  have ha : fieldN1 w = a := by rw [← fieldN1_and (m := 0xF000#16) rfl, h, fieldN1_wordXYN]
  exact ⟨make (fieldX w) (fieldY w) (fieldN w), by rw [← hmake, wordXYN_of_fields ha rfl]⟩

theorem decodes_of_matches_regOnly {make : Nibble → Instr}
    (hmake : ∀ x, decodeWord (wordXK a x code) = .ok (make x)) (h : w &&& 0xF0FF#16 = wordXK a 0 code) :
    ∃ i, decodeWord w = .ok i := by
  have ha : fieldN1 w = a := by rw [← fieldN1_and (m := 0xF0FF#16) rfl, h, fieldN1_wordXK]
  have hnn : fieldNN w = code := by rw [← fieldNN_and (m := 0xF0FF#16) rfl, h, fieldNN_wordXK]
  exact ⟨make (fieldX w), by rw [← hmake, wordXK_of_fields ha hnn]⟩

theorem decodes_of_matches_exact {v : Word} {i : Instr} (hv : decodeWord v = .ok i) (h : w &&& 0xFFFF#16 = v) :
    ∃ i, decodeWord w = .ok i := by
  have hw : w = v := (BitVec.and_allOnes (x := w)).symm.trans h
  exact ⟨i, hw ▸ hv⟩

end

/-- The rows in their order, each by the lemma of its format. -/
theorem decodes_of_matches_row {w : Word} :
    ∀ r ∈ opcodeTable, w &&& r.mask = r.fixed → ∃ i, decodeWord w = .ok i := by
  simp only [opcodeTable, List.forall_mem_cons]
  exact ⟨
    fun h => decodes_of_matches_exact (i := .clearScreen) rfl h,
    fun h => decodes_of_matches_exact (i := .ret) rfl h,
    fun h => decodes_of_matches_addr decodeWord_jump h,
    fun h => decodes_of_matches_addr decodeWord_call h,
    fun h => decodes_of_matches_regByte decodeWord_skipEqConst h,
    fun h => decodes_of_matches_regByte decodeWord_skipNeqConst h,
    fun h => decodes_of_matches_twoRegs decodeWord_skipEqReg h,
    fun h => decodes_of_matches_regByte decodeWord_setConst h,
    fun h => decodes_of_matches_regByte decodeWord_addConst h,
    fun h => decodes_of_matches_twoRegs decodeWord_setReg h,
    fun h => decodes_of_matches_twoRegs decodeWord_or h,
    fun h => decodes_of_matches_twoRegs decodeWord_and h,
    fun h => decodes_of_matches_twoRegs decodeWord_xor h,
    fun h => decodes_of_matches_twoRegs decodeWord_add h,
    fun h => decodes_of_matches_twoRegs decodeWord_sub h,
    fun h => decodes_of_matches_twoRegs decodeWord_shiftRight h,
    fun h => decodes_of_matches_twoRegs decodeWord_subReverse h,
    fun h => decodes_of_matches_twoRegs decodeWord_shiftLeft h,
    fun h => decodes_of_matches_twoRegs decodeWord_skipNeqReg h,
    fun h => decodes_of_matches_addr decodeWord_setIndex h,
    fun h => decodes_of_matches_addr decodeWord_jumpPlusV0 h,
    fun h => decodes_of_matches_regByte decodeWord_randMask h,
    fun h => decodes_of_matches_twoRegsNibble decodeWord_draw h,
    fun h => decodes_of_matches_regOnly decodeWord_skipKeyPressed h,
    fun h => decodes_of_matches_regOnly decodeWord_skipKeyNotPressed h,
    fun h => decodes_of_matches_regOnly decodeWord_getDelay h,
    fun h => decodes_of_matches_regOnly decodeWord_awaitKey h,
    fun h => decodes_of_matches_regOnly decodeWord_setDelay h,
    fun h => decodes_of_matches_regOnly decodeWord_setSound h,
    fun h => decodes_of_matches_regOnly decodeWord_addToIndex h,
    fun h => decodes_of_matches_regOnly decodeWord_setIndexFont h,
    fun h => decodes_of_matches_regOnly decodeWord_storeBCD h,
    fun h => decodes_of_matches_regOnly decodeWord_dumpRegs h,
    fun h => decodes_of_matches_regOnly decodeWord_loadRegs h,
    List.forall_mem_nil _⟩

/-! ### The assembler (R92, R103) -/

theorem wordA_or (a a' : Nibble) (b b' : Addr) : wordA a b ||| wordA a' b' = wordA (a ||| a') (b ||| b') := by
  rw [wordA, wordA, BitVec.or_append]; rfl

theorem wordXK_or (a a' x x' : Nibble) (b b' : Byte) :
    wordXK a x b ||| wordXK a' x' b' = wordXK (a ||| a') (x ||| x') (b ||| b') := by
  rw [wordXK, wordXK, BitVec.or_append, BitVec.or_append]; rfl

theorem wordXYN_or (a a' x x' y y' n n' : Nibble) :
    wordXYN a x y n ||| wordXYN a' x' y' n' = wordXYN (a ||| a') (x ||| x') (y ||| y') (n ||| n') := by
  rw [wordXYN, wordXYN, BitVec.or_append, BitVec.or_append, BitVec.or_append]; rfl

/-- The word of a line its row accepts is the row's fixed bits with the operands placed beside them. -/
theorem assembleLine_of_row {m : String} {f : Format} {fixed mask : Word} {ops : List Operand}
    (hr : findRow opcodeTable m = some ⟨m, f, fixed, mask⟩) (hacc : f.accepts ops = true) :
    assembleLine ⟨m, ops⟩ = some (fixed ||| BitVec.ofNat 16 (placeOperands f (ops.map operandValue))) := by
  simp only [assembleLine, hr, if_pos hacc]

section
open Laws.EncodesItsRow (isReg_nibble isConst_field)

variable {m : String} {a n : Nibble} {code : Byte} {mask : Word}

theorem assembleLine_exact {w : Word} (hr : findRow opcodeTable m = some ⟨m, .exact, w, mask⟩) :
    assembleLine ⟨m, []⟩ = some w := by
  exact Eq.trans (assembleLine_of_row hr rfl) (congrArg some BitVec.or_zero)

theorem assembleLine_addr (hr : findRow opcodeTable m = some ⟨m, .addr, wordA a 0, mask⟩) (nnn : Addr) :
    assembleLine ⟨m, [.const nnn.toNat]⟩ = some (wordA a nnn) := by
  have hplaced : BitVec.ofNat 16 nnn.toNat = wordA 0 nnn := by simpa using ofNat_eq_wordA 0 nnn
  refine Eq.trans (assembleLine_of_row hr (isConst_field nnn)) (congrArg some ?_)
  show wordA a 0 ||| BitVec.ofNat 16 nnn.toNat = _
  rw [hplaced, wordA_or]
  simp

/-- Operands `x` and `nn` placed by their format, as a word with the high digit 0. -/
theorem ofNat_placed_byte (x : Nibble) (nn : Byte) : BitVec.ofNat 16 (x.toNat * 256 + nn.toNat) = wordXK 0 x nn := by
  rw [← ofNat_eq_wordXK (base := 0) rfl, Nat.zero_add, Nat.mul_comm]

/-- Operands `x`, `y` and `n` placed by their format, as a word with the high digit 0. -/
theorem ofNat_placed_nibbles (x y n : Nibble) :
    BitVec.ofNat 16 (x.toNat * 256 + y.toNat * 16 + n.toNat) = wordXYN 0 x y n := by
  rw [← ofNat_eq_wordXYN (base := 0) rfl, Nat.zero_add, Nat.mul_comm, Nat.mul_comm 16]

theorem assembleLine_regByte (hr : findRow opcodeTable m = some ⟨m, .regByte, wordXK a 0 0, mask⟩) (x : Nibble)
    (nn : Byte) : assembleLine ⟨m, [.reg x.toNat, .const nn.toNat]⟩ = some (wordXK a x nn) := by
  have hacc : Format.regByte.accepts [.reg x.toNat, .const nn.toNat] = true :=
    Laws.EncodesItsRow.and_true (isReg_nibble x) (isConst_field nn)
  refine Eq.trans (assembleLine_of_row hr hacc) (congrArg some ?_)
  show wordXK a 0 0 ||| BitVec.ofNat 16 (x.toNat * 256 + nn.toNat) = _
  rw [ofNat_placed_byte, wordXK_or]
  simp

theorem assembleLine_regOnly (hr : findRow opcodeTable m = some ⟨m, .regOnly, wordXK a 0 code, mask⟩) (x : Nibble) :
    assembleLine ⟨m, [.reg x.toNat]⟩ = some (wordXK a x code) := by
  have hplaced : BitVec.ofNat 16 (x.toNat * 256) = wordXK 0 x 0 := by simpa using ofNat_placed_byte x 0
  refine Eq.trans (assembleLine_of_row hr (isReg_nibble x)) (congrArg some ?_)
  show wordXK a 0 code ||| BitVec.ofNat 16 (x.toNat * 256) = _
  rw [hplaced, wordXK_or]
  simp

theorem assembleLine_twoRegs (hr : findRow opcodeTable m = some ⟨m, .twoRegs, wordXYN a 0 0 n, mask⟩)
    (x y : Nibble) : assembleLine ⟨m, [.reg x.toNat, .reg y.toNat]⟩ = some (wordXYN a x y n) := by
  have hplaced : BitVec.ofNat 16 (x.toNat * 256 + y.toNat * 16) = wordXYN 0 x y 0 := by
    simpa using ofNat_placed_nibbles x y 0
  have hacc : Format.twoRegs.accepts [.reg x.toNat, .reg y.toNat] = true :=
    Laws.EncodesItsRow.and_true (isReg_nibble x) (isReg_nibble y)
  refine Eq.trans (assembleLine_of_row hr hacc) (congrArg some ?_)
  show wordXYN a 0 0 n ||| BitVec.ofNat 16 (x.toNat * 256 + y.toNat * 16) = _
  rw [hplaced, wordXYN_or]
  simp

theorem assembleLine_twoRegsNibble (hr : findRow opcodeTable m = some ⟨m, .twoRegsNibble, wordXYN a 0 0 0, mask⟩)
    (x y n : Nibble) : assembleLine ⟨m, [.reg x.toNat, .reg y.toNat, .const n.toNat]⟩ = some (wordXYN a x y n) := by
  have hxy := Laws.EncodesItsRow.and_true (isReg_nibble x) (isReg_nibble y)
  have hacc : Format.twoRegsNibble.accepts [.reg x.toNat, .reg y.toNat, .const n.toNat] = true :=
    Laws.EncodesItsRow.and_true hxy (isConst_field n)
  refine Eq.trans (assembleLine_of_row hr hacc) (congrArg some ?_)
  show wordXYN a 0 0 0 ||| BitVec.ofNat 16 (x.toNat * 256 + y.toNat * 16 + n.toNat) = _
  rw [ofNat_placed_nibbles, wordXYN_or]
  simp

end

/-- Every instruction's line assembles to its word: one row of the opcode map per case, by the lemma of its format. -/
theorem assembleLine_line : ∀ i : Instr, assembleLine i.line = some (encode i)
  | .clearScreen => assembleLine_exact rfl
  | .ret => assembleLine_exact rfl
  | .jump nnn => assembleLine_addr rfl nnn
  | .call nnn => assembleLine_addr rfl nnn
  | .skipEqConst x nn => assembleLine_regByte rfl x nn
  | .skipNeqConst x nn => assembleLine_regByte rfl x nn
  | .skipEqReg x y => assembleLine_twoRegs rfl x y
  | .setConst x nn => assembleLine_regByte rfl x nn
  | .addConst x nn => assembleLine_regByte rfl x nn
  | .setReg x y => assembleLine_twoRegs rfl x y
  | .or x y => assembleLine_twoRegs rfl x y
  | .and x y => assembleLine_twoRegs rfl x y
  | .xor x y => assembleLine_twoRegs rfl x y
  | .add x y => assembleLine_twoRegs rfl x y
  | .sub x y => assembleLine_twoRegs rfl x y
  | .shiftRight x y => assembleLine_twoRegs rfl x y
  | .subReverse x y => assembleLine_twoRegs rfl x y
  | .shiftLeft x y => assembleLine_twoRegs rfl x y
  | .skipNeqReg x y => assembleLine_twoRegs rfl x y
  | .setIndex nnn => assembleLine_addr rfl nnn
  | .jumpPlusV0 nnn => assembleLine_addr rfl nnn
  | .randMask x nn => assembleLine_regByte rfl x nn
  | .draw x y n => assembleLine_twoRegsNibble rfl x y n
  | .skipKeyPressed x => assembleLine_regOnly rfl x
  | .skipKeyNotPressed x => assembleLine_regOnly rfl x
  | .getDelay x => assembleLine_regOnly rfl x
  | .awaitKey x => assembleLine_regOnly rfl x
  | .setDelay x => assembleLine_regOnly rfl x
  | .setSound x => assembleLine_regOnly rfl x
  | .addToIndex x => assembleLine_regOnly rfl x
  | .setIndexFont x => assembleLine_regOnly rfl x
  | .storeBCD x => assembleLine_regOnly rfl x
  | .dumpRegs x => assembleLine_regOnly rfl x
  | .loadRegs x => assembleLine_regOnly rfl x

/-! ### The obligations -/

/-- Settles O2: every instruction's line is well formed, and its word decodes to it by the lemma of its row. -/
theorem decodeOfEncodeIsIdentity : Obligations.DecodeOfEncodeIsIdentity := fun i =>
  ⟨(Laws.EncodesItsRow.statement i).1, decodeWord_encode i⟩

/-- Settles O3: each branch of the decision tree keeps every bit of the word. -/
theorem encodeOfDecodeIsIdentity : Obligations.EncodeOfDecodeIsIdentity := fun _ _ h => encode_decodeWord h

/-- Settles O4: a decoded word is the encoding of its instruction, which matches one row; a word that matches a row
decodes. -/
theorem decoderAgreesWithOpcodeMap : Obligations.DecoderAgreesWithOpcodeMap := by
  refine ⟨fun w i h r hr => ?_, fun w => ⟨decodeWord_unmatched, fun h r hr hmatch => ?_⟩⟩
  · rw [← encode_decodeWord h]
    exact encode_matches_iff i hr
  · obtain ⟨i, hi⟩ := decodes_of_matches_row r hr hmatch
    rw [h] at hi
    cases hi

/-- Settles O5: by the row and the format of each instruction. -/
theorem assemblerAgreesWithEncoder : Obligations.AssemblerAgreesWithEncoder := assembleLine_line

/-- Settles O1: nine fixed words. -/
theorem workedWordsDecode : Obligations.WorkedWordsDecode :=
  ⟨rfl, rfl, rfl, rfl, rfl, rfl, rfl, rfl, rfl⟩

end Sys2Proof.Machine
end

section
/-! What each instruction may write (`10_state.md` sections 6, 8, 10 and 11, `20_memory.md` section 6,
`60_exceptions.md` section 1): one table over the instructions and components, the proof that every instruction keeps
to it, and the obligations that read one component off it. -/

namespace Sys2Proof.Machine

/-! ### Frames -/

theorem State.Same.refl (s : State) (c : Component) : s.Same s c := by
  cases c <;> rfl

/-- A fault entry touches the latch only (R216). -/
theorem State.sameBut_raise (s : State) (f : FaultKind) : s.SameBut (s.raise f) fun c => c = .fault := by
  intro c hc
  cases c with
  | fault => exact absurd rfl hc
  | _ => rfl

/-- A draw of a random byte touches the model's counter only (log 4). -/
theorem State.sameBut_nextDraw (s : State) : s.SameBut s.nextDraw fun c => c = .draws := by
  intro c hc
  cases c with
  | draws => exact absurd rfl hc
  | _ => rfl

/-- An instruction with a range check touches the fault latch or what its access touches. -/
theorem afterCheck_sameBut {s access t : State} {addr len : Nat} {may : Component → Prop}
    (h : afterCheck s addr len access = .next t) (haccess : s.SameBut access may) :
    s.SameBut t fun c => c = .fault ∨ may c := by
  intro c hc
  obtain ⟨hfault, hmay⟩ := not_or.mp hc
  obtain ⟨rfl, -⟩ | ⟨rfl, -⟩ := afterCheck_cases h
  · exact haccess c hmay
  · exact s.sameBut_raise _ c hfault

/-! ### The outcomes of a Return and a Call (R140, R142) -/

theorem exec_ret_cases {s t : State} (h : exec .ret s = .next t) :
    t = s.raise .stackUnderflow ∨ ∃ hpos : 0 < s.sp.val, t = s.popped.setPc (s.top hpos) := by
  obtain h0 | hpos := Nat.eq_zero_or_pos s.sp.val
  · rw [exec_ret_empty h0] at h
    cases h
    exact .inl rfl
  · rw [exec_ret_ok hpos] at h
    cases h
    exact .inr ⟨hpos, rfl⟩

theorem exec_call_cases {nnn : Addr} {s t : State} (h : exec (.call nnn) s = .next t) :
    t = s.raise .stackOverflow ∨
    ∃ hfree : s.sp.val < Config.stackDepth, t = (s.pushed (s.pc + 2) hfree).setPc (zextAddr nnn) := by
  obtain hfree | hfull := Nat.lt_or_eq_of_le (Nat.le_of_lt_succ s.sp.isLt)
  · rw [exec_call_ok hfree] at h
    cases h
    exact .inr ⟨hfree, rfl⟩
  · rw [exec_call_full hfull] at h
    cases h
    exact .inl rfl

/-! ### The table -/

/-- The components an instruction may write in the state `s`. -/
def State.MayWrite (s : State) : Instr → Component → Prop
  | .jump _, c | .jumpPlusV0 _, c | .skipEqConst _ _, c | .skipNeqConst _ _, c | .skipEqReg _ _, c => c = .pc
  | .skipNeqReg _ _, c | .skipKeyPressed _, c | .skipKeyNotPressed _, c | .awaitKey _, c => c = .pc
  | .ret, c => c = .fault ∨ c = .pc ∨ c = .depth
  | .call _, c => c = .fault ∨ c = .pc ∨ c = .depth ∨ ∃ k, c = .stackEntry k
  | .setConst x _, c | .addConst x _, c | .setReg x _, c | .or x _, c | .and x _, c => c = .pc ∨ c = .reg x
  | .xor x _, c | .getDelay x, c => c = .pc ∨ c = .reg x
  | .add x _, c | .sub x _, c | .shiftRight x _, c => c = .pc ∨ c = .reg x ∨ c = .reg 15#4
  | .subReverse x _, c | .shiftLeft x _, c => c = .pc ∨ c = .reg x ∨ c = .reg 15#4
  | .randMask x _, c => c = .pc ∨ c = .draws ∨ c = .reg x
  | .setIndex _, c | .setIndexFont _, c => c = .pc ∨ c = .index
  | .addToIndex _, c => c = .pc ∨ c = .index ∨ c = .reg 15#4
  | .storeBCD _, c => c = .fault ∨ c = .pc ∨ ∃ k < 3, c = .cell (s.i.toNat + k)
  | .dumpRegs x, c => c = .fault ∨ c = .pc ∨ ∃ k < x.toNat + 1, c = .cell (s.i.toNat + k)
  | .loadRegs x, c => c = .fault ∨ c = .pc ∨ ∃ k : Nibble, k.toNat ≤ x.toNat ∧ c = .reg k
  | .clearScreen, c => c = .pc ∨ c = .renders ∨ ∃ k < 2048, c = .pixel k
  | .draw _ _ _, c => c = .fault ∨ c = .pc ∨ c = .renders ∨ (∃ k < 2048, c = .pixel k) ∨ c = .reg 15#4
  | .setDelay _, c => c = .pc ∨ c = .delayTimer
  | .setSound _, c => c = .pc ∨ c = .soundTimer

/-- Every instruction keeps to the table. -/
theorem exec_sameBut {i : Instr} {s t : State} (h : exec i s = .next t) : s.SameBut t (s.MayWrite i) := by
  cases i with
  | ret =>
    obtain rfl | ⟨hpos, rfl⟩ := exec_ret_cases h
    · exact fun c hc => s.sameBut_raise _ c fun e => hc (.inl e)
    · exact fun c hc => s.sameBut_popped.setPc _ c fun e => hc (.inr e)
  | call nnn =>
    obtain rfl | ⟨hfree, rfl⟩ := exec_call_cases h
    · exact fun c hc => s.sameBut_raise _ c fun e => hc (.inl e)
    · refine fun c hc => (s.sameBut_pushed _ hfree).setPc _ c fun e => hc (.inr ?_)
      exact e.imp_right (Or.imp_right fun e => ⟨_, e⟩)
  | awaitKey x =>
    rw [exec_awaitKey] at h
    split at h <;> cases h
    · exact s.sameBut_setPc _
    · exact fun c _ => State.Same.refl s c
  | setConst x _ | addConst x _ | setReg x _ | or x _ | and x _ | xor x _ | getDelay x =>
    cases h; exact s.sameBut_result x _
  | add x _ | sub x _ | shiftRight x _ | subReverse x _ | shiftLeft x _ =>
    cases h; exact s.sameBut_resultFlag x _ _
  | randMask x _ => cases h; exact (s.sameBut_nextDraw.setReg x _).setPc _
  | setIndex _ | setIndexFont _ => cases h; exact (s.sameBut_setI _).setPc _
  | addToIndex _ => cases h; exact ((s.sameBut_setI _).setReg 15#4 _).setPc _
  | storeBCD x => exact afterCheck_sameBut h (s.sameBut_stored (digits (s.reg x)))
  | dumpRegs x =>
    have hframe := s.sameBut_stored (s.block x)
    simp only [length_block] at hframe
    exact afterCheck_sameBut h hframe
  | loadRegs x => exact afterCheck_sameBut h (s.sameBut_loaded x)
  | clearScreen => cases h; exact (s.sameBut_setFB 0).emitRender.setPc _
  | draw _ _ _ => exact afterCheck_sameBut h (((s.sameBut_setFB _).setReg 15#4 _).emitRender.setPc _)
  | setDelay _ => cases h; exact (s.sameBut_setDT _).setPc _
  | setSound _ => cases h; exact (s.sameBut_setST _).setPc _
  | _ => cases h; exact s.sameBut_setPc _

/-- A component that an instruction changed is one it may write. -/
theorem mayWrite_of_changed {i : Instr} {s t : State} (h : exec i s = .next t) {c : Component} (hc : ¬ s.Same t c) :
    s.MayWrite i c :=
  by_contra fun hn => hc (exec_sameBut h c hn)

/-! ### Who may write a component -/

section
variable {s : State} {i : Instr}

theorem faults_of_mayWrite (h : s.MayWrite i .fault) :
    i = .ret ∨ (∃ nnn, i = .call nnn) ∨ (∃ x y n, i = .draw x y n) ∨ (∃ x, i = .storeBCD x) ∨
    (∃ x, i = .dumpRegs x) ∨ ∃ x, i = .loadRegs x := by
  cases i <;> simp [State.MayWrite] at h ⊢

theorem stores_of_mayWrite {a : Nat} (h : s.MayWrite i (.cell a)) :
    (∃ x, i = .storeBCD x ∧ s.i.toNat ≤ a ∧ a < s.i.toNat + 3) ∨
    ∃ x, i = .dumpRegs x ∧ s.i.toNat ≤ a ∧ a ≤ s.i.toNat + x.toNat := by
  cases i with
  | storeBCD x =>
    obtain ⟨k, hk, rfl⟩ : ∃ k < 3, a = s.i.toNat + k := by simpa [State.MayWrite] using h
    exact .inl ⟨x, rfl, by omega, by omega⟩
  | dumpRegs x =>
    obtain ⟨k, hk, rfl⟩ : ∃ k < x.toNat + 1, a = s.i.toNat + k := by simpa [State.MayWrite] using h
    exact .inr ⟨x, rfl, by omega, by omega⟩
  | _ => simp [State.MayWrite] at h

theorem setsDelay_of_mayWrite (h : s.MayWrite i .delayTimer) : ∃ x, i = .setDelay x := by
  cases i <;> simp [State.MayWrite] at h ⊢

theorem setsSound_of_mayWrite (h : s.MayWrite i .soundTimer) : ∃ x, i = .setSound x := by
  cases i <;> simp [State.MayWrite] at h ⊢

theorem displays_of_mayWrite {k : Nat} (h : s.MayWrite i (.pixel k)) : i.displays = true := by
  cases i <;> simp [State.MayWrite, Instr.displays] at h ⊢

/-- The components that no instruction writes. -/
theorem not_mayWrite_hostOwned (s : State) (i : Instr) :
    (∀ k, ¬ s.MayWrite i (.key k)) ∧ ¬ s.MayWrite i .run ∧ ¬ s.MayWrite i .schedule := by
  cases i <;> simp [State.MayWrite]

/-- An instruction with `VF` among what it may write sets the flag or has `V15` as its destination. -/
theorem flag_of_mayWrite (h : s.MayWrite i (.reg 15#4)) :
    (∃ x y, i = .add x y ∨ i = .sub x y ∨ i = .shiftRight x y ∨ i = .subReverse x y ∨ i = .shiftLeft x y) ∨
    (∃ x y n, i = .draw x y n) ∨ (∃ x, i = .addToIndex x) ∨
    (∃ nn, i = .setConst 15#4 nn ∨ i = .addConst 15#4 nn ∨ i = .randMask 15#4 nn) ∨
    (∃ y, i = .setReg 15#4 y ∨ i = .or 15#4 y ∨ i = .and 15#4 y ∨ i = .xor 15#4 y) ∨
    i = .getDelay 15#4 ∨ i = .loadRegs 15#4 := by
  cases i with
  | add x y | sub x y | shiftRight x y | subReverse x y | shiftLeft x y | draw x y n | addToIndex x => simp
  | setConst x nn | addConst x nn | randMask x nn | setReg x y | or x y | and x y | xor x y | getDelay x =>
    obtain rfl : 15#4 = x := by simpa [State.MayWrite] using h
    simp
  | loadRegs x =>
    have hx : 15 ≤ x.toNat := by simpa [State.MayWrite] using h
    obtain rfl : x = 15#4 := by bv_omega
    simp
  | _ => simp [State.MayWrite] at h

end

/-! ### The obligations -/

/-- Settles O11: the instructions whose table entry names the fault latch. -/
theorem onlySixInstructionsFault : Obligations.OnlySixInstructionsFault := fun _ _ _ h hne =>
  faults_of_mayWrite (mayWrite_of_changed (c := .fault) h hne)

/-- Settles O51: the instructions whose table entry names a cell, and which cells. -/
theorem onlyStoresChangeMemory : Obligations.OnlyStoresChangeMemory := fun _ _ _ a h hne =>
  stores_of_mayWrite (mayWrite_of_changed (c := .cell a) h hne)

/-- Settles O53: no table entry names a key, the run latch or the schedule, and one each names a timer. -/
theorem instructionsKeepHostOwnedState : Obligations.InstructionsKeepHostOwnedState := by
  intro i s t h
  obtain ⟨hkey, hrun, hschedule⟩ := not_mayWrite_hostOwned s i
  refine ⟨BitVec.eq_of_getLsbD_eq fun k _ => exec_sameBut h (.key k) (hkey k), exec_sameBut h .run hrun,
    exec_sameBut h .schedule hschedule, fun hdt => ?_, fun hst => ?_⟩
  · exact setsDelay_of_mayWrite (mayWrite_of_changed (c := .delayTimer) h hdt)
  · exact setsSound_of_mayWrite (mayWrite_of_changed (c := .soundTimer) h hst)

/-- Settles O55: the instructions whose table entry names `VF`. -/
theorem onlyFlagInstructionsWriteVF : Obligations.OnlyFlagInstructionsWriteVF := fun _ _ _ h hne =>
  flag_of_mayWrite (mayWrite_of_changed (c := .reg 15#4) h hne)

/-- Settles O26: a result without a flag, the next free byte masked, after which the draw is used up. -/
theorem randMaskMasksAFreshDraw : Obligations.RandMaskMasksAFreshDraw := by
  intro s x nn
  refine ⟨wordIs_of_wordXK rfl (decodeWord_randMask x nn), s.nextDraw.result x (s.drawByte &&& nn), rfl,
    State.reg_result_self _ x _, fun k hk => ?_, rfl, rfl, fun c hc => ?_⟩
  · rw [State.reg_result_self, BitVec.getLsbD_and, hk, Bool.and_false]
  · refine exec_sameBut (i := .randMask x nn) rfl c fun hmay => hc ?_
    exact hmay.imp_right Or.symm

/-- Settles O18: the Call leaves `pc + 2` as the entry on top, which is all the Return needs. -/
theorem returnUndoesCall : Obligations.ReturnUndoesCall := by
  intro s t u nnn hfree h hstack hsp
  rw [exec_call_ok hfree] at h
  cases h
  have hdepth : u.sp.val = s.sp.val + 1 := congrArg Fin.val hsp
  have hpos : 0 < u.sp.val := by omega
  refine ⟨_, exec_ret_ok hpos, ?_, ?_⟩
  · show u.stack[u.sp.val - 1] = s.pc + 2
    simp only [hstack, hdepth, Nat.add_sub_cancel]
    exact getElem_pushed_self s _ hfree
  · exact Fin.ext (by show u.sp.val - 1 = s.sp.val; omega)

end Sys2Proof.Machine
end

section
/-! The Step (`40_execution_engine.md` sections 1 and 3) and the transitions of all agents (`60_exceptions.md`): when a
Step is enabled and what it does, what a transition can do whoever makes it, and the obligations on them. -/

namespace Sys2Proof.Machine

/-! ### The Engine's turn -/

theorem engineStep_faulted {s : State} {f : FaultKind} (h : s.fault = some f) :
    engineStep s = .fault (.engineFaulted f) := by
  simp [engineStep, State.blocked, h]

theorem engineStep_stopped {s : State} (hf : s.fault = none) (hr : s.run = false) :
    engineStep s = .fault .engineStopped := by
  simp [engineStep, State.blocked, hf, hr]

section
variable {s : State} (hs : s.Ready)
include hs

/-- An enabled Step whose fetch gives an instruction is that instruction's effect, with the turn used up. -/
theorem step_fetch_ok {i : Instr} (h : s.fetch = .ok i) : step s = exec i s.afterTurn :=
  (step_enginesTurn hs.enginesTurn).trans (engineStep_ok hs.running hs.unfaulted h)

/-- An enabled Step answers a next state. -/
theorem step_next_of_ready : ∃ t, step s = .next t := by
  cases hfetch : s.fetch with
  | error f => exact ⟨_, step_fetch_error hs hfetch⟩
  | ok i => exact (step_fetch_ok hs hfetch).symm ▸ exec_next i s.afterTurn

end

/-! ### What a transition can do, whoever makes it (R232) -/

/-- What a transition of the Ticker, of the keys or of Start and Stop leaves. -/
def State.HostMove (s t : State) : Prop :=
  t = s.tick ∨ (∃ k, t = s.press k) ∨ (∃ k, t = s.release k) ∨ ∃ b, t = s.setRun b

/-- A transition that answers a next state is a Step that enters the fault of its fetch, a Step that runs the
instruction it fetched, a move of the Ticker or the Host, or a Reset; each with the turn used up. -/
theorem step_inversion {s t : State} (h : step s = .next t) :
    (s.Ready ∧ ∃ f, s.fetch = .error f ∧ t = s.afterTurn.raise f) ∨
    (s.Ready ∧ ∃ i, s.fetch = .ok i ∧ exec i s.afterTurn = .next t) ∨
    s.afterTurn.HostMove t ∨
    ∃ rom rest, s.schedule = .reset rom :: rest ∧ t = s.afterTurn.hostReset rom := by
  by_cases turn : s.EnginesTurn
  · have hs := ready_of_step turn h
    cases hfetch : s.fetch with
    | error f =>
      rw [step_fetch_error hs hfetch] at h
      cases h
      exact .inl ⟨hs, f, rfl, rfl⟩
    | ok i => exact .inr (.inl ⟨hs, i, rfl, step_fetch_ok hs hfetch ▸ h⟩)
  · right; right
    obtain ⟨hnil, -⟩ | ⟨tn, rest, hsched, -⟩ := step_cases h
    · exact absurd (.inl hnil) turn
    · rw [step_of_schedule hsched] at h
      obtain ⟨rfl, -⟩ | ⟨-, ht⟩ | ⟨k, -, ht⟩ | ⟨k, -, ht⟩ | ⟨-, ht⟩ | ⟨-, ht⟩ | ⟨rom, rfl, -, ht⟩ := takeTurn_cases h
      · exact absurd (.inr ⟨rest, hsched⟩) turn
      · exact .inl (.inl ht)
      · exact .inl (.inr (.inl ⟨k, ht⟩))
      · exact .inl (.inr (.inr (.inl ⟨k, ht⟩)))
      · exact .inl (.inr (.inr (.inr ⟨_, ht⟩)))
      · exact .inl (.inr (.inr (.inr ⟨_, ht⟩)))
      · exact .inr ⟨rom, rest, hsched, ht⟩

/-- No such move touches the frame, the fault latch or the schedule, and none raises a timer. -/
theorem State.HostMove.keeps {s t : State} (h : s.HostMove t) :
    t.fb = s.fb ∧ t.fault = s.fault ∧ t.schedule = s.schedule ∧
    t.dt.toNat ≤ s.dt.toNat ∧ t.st.toNat ≤ s.st.toNat := by
  obtain rfl | ⟨k, rfl⟩ | ⟨k, rfl⟩ | ⟨b, rfl⟩ := h
  · refine ⟨rfl, rfl, rfl, ?_, ?_⟩
    · rw [State.tick_dt, toNat_tickDown]; exact Nat.sub_le _ _
    · rw [State.tick_st, toNat_tickDown]; exact Nat.sub_le _ _
  all_goals exact ⟨rfl, rfl, rfl, le_rfl, le_rfl⟩

/-- An instruction that raises the delay timer set it. -/
theorem setsDelay_of_dt_lt {i : Instr} {s t : State} (h : exec i s = .next t) (hlt : s.dt.toNat < t.dt.toNat) :
    ∃ x, i = .setDelay x :=
  setsDelay_of_mayWrite (mayWrite_of_changed (c := .delayTimer) h fun e : t.dt = s.dt => by
    rw [e] at hlt; exact lt_irrefl _ hlt)

/-- An instruction that raises the sound timer set it. -/
theorem setsSound_of_st_lt {i : Instr} {s t : State} (h : exec i s = .next t) (hlt : s.st.toNat < t.st.toNat) :
    ∃ x, i = .setSound x :=
  setsSound_of_mayWrite (mayWrite_of_changed (c := .soundTimer) h fun e : t.st = s.st => by
    rw [e] at hlt; exact lt_irrefl _ hlt)

/-- An instruction that changes the frame displays. -/
theorem displays_of_fb_ne {i : Instr} {s t : State} (h : exec i s = .next t) (hne : t.fb ≠ s.fb) :
    i.displays = true := by
  by_contra hd
  exact hne (BitVec.eq_of_getLsbD_eq fun k _ => exec_sameBut h (.pixel k) fun hmay => hd (displays_of_mayWrite hmay))

/-! ### The obligations -/

/-- Settles O6: by the outcome of the fetch. -/
theorem stepRunsDecodedInstruction : Obligations.StepRunsDecodedInstruction := fun _ hs =>
  ⟨fun _ hpc hd => step_fetch_ok hs (fetch_ok (Nat.succ_le_succ hpc) hd), fun _ hf => step_fetch_error hs hf⟩

/-- Settles O7: the payload `max(pc, 4096)` is 4096 at `pc = 4095`, and `pc` above. -/
theorem fetchPastMemoryFaults : Obligations.FetchPastMemoryFaults := by
  intro s hs hpc
  have hpayload : BitVec.ofNat 16 (max s.pc.toNat Config.memSize) = if s.pc.toNat = 4095 then 4096 else s.pc := by
    split
    next h => rw [h]; rfl
    next h =>
      have hmax : max s.pc.toNat Config.memSize = s.pc.toNat := max_eq_left (by simp only [Config.memSize]; omega)
      rw [hmax, BitVec.ofNat_toNat, BitVec.setWidth_eq]
  rw [step_fetch_error hs (fetch_outside (by simp only [Config.memSize]; omega)), hpayload]
  rfl

/-- Settles O13: an enabled Step answers a next state, and only an enabled one does; the two other cases are its two
stops. -/
theorem stepEnabledExactlyWhenRunningUnfaulted : Obligations.StepEnabledExactlyWhenRunningUnfaulted := by
  intro s turn
  refine ⟨⟨?_, ?_⟩, fun f hf => ?_, fun hf hr => ?_⟩
  · rintro ⟨t, h⟩
    have hs := ready_of_step turn h
    exact ⟨hs.running, hs.unfaulted⟩
  · rintro ⟨hr, hf⟩
    exact step_next_of_ready ⟨hr, hf, turn⟩
  · exact (step_enginesTurn turn).trans (engineStep_faulted hf)
  · exact (step_enginesTurn turn).trans (engineStep_stopped hf hr)

/-- Settles O59: the jump to its own address sets `pc` to what it was. -/
theorem parkedStepChangesNothing : Obligations.ParkedStepChangesNothing := by
  rintro s hs ⟨nnn, hfetch, hpc⟩
  rw [step_fetch_ok hs hfetch, exec_jump, hpc]
  rfl

/-- Settles O43: both turns write the run latch in the state with the turn used up. -/
theorem startAndStopSetRunLatch : Obligations.StartAndStopSetRunLatch := by
  intro s rest
  refine ⟨fun h => ?_, fun h => ?_⟩ <;>
  · rw [step_of_schedule h, State.afterTurn, h]
    rfl

/-- Settles O46: a Reset whose ROM does not fit is refused. -/
theorem overlongRomIsRefused : Obligations.OverlongRomIsRefused := fun _ _ _ hlong h =>
  (step_of_schedule h).trans (if_neg (Nat.not_le_of_lt hlong))

/-- Settles O12: in a faulted state the Engine has no transition, and of the others only Reset writes the latch. -/
theorem faultLatchClearedOnlyByReset : Obligations.FaultLatchClearedOnlyByReset := by
  intro s t f hf h
  obtain ⟨hs, -⟩ | ⟨hs, -⟩ | hmove | ⟨rom, rest, hsched, -⟩ := step_inversion h
  · cases hf.symm.trans hs.unfaulted
  · cases hf.symm.trans hs.unfaulted
  · obtain ⟨-, hfault, -⟩ := hmove.keeps
    exact .inl (hfault.trans hf)
  · exact .inr ⟨rom, rest, hsched⟩

/-- Settles O48: every transition is made in the state with the turn used up, and keeps the schedule of that state. -/
theorem turnsAreTakenInOrder : Obligations.TurnsAreTakenInOrder := by
  intro s t h
  obtain ⟨-, f, -, rfl⟩ | ⟨-, i, -, hexec⟩ | hmove | ⟨rom, rest, -, rfl⟩ := step_inversion h
  · rfl
  · obtain ⟨-, -, hschedule⟩ := not_mayWrite_hostOwned s.afterTurn i
    exact exec_sameBut hexec .schedule hschedule
  · obtain ⟨-, -, hschedule, -⟩ := hmove.keeps
    exact hschedule
  · rfl

/-- Settles O52: neither a fault entry nor a move of the Host but Reset changes the frame, and an instruction that does
displays. -/
theorem onlyDisplayInstructionsChangeFrame : Obligations.OnlyDisplayInstructionsChangeFrame := by
  intro s t h hne
  obtain ⟨-, f, -, rfl⟩ | ⟨hs, i, hfetch, hexec⟩ | hmove | ⟨rom, rest, hsched, -⟩ := step_inversion h
  · exact absurd rfl hne
  · exact .inr ⟨hs.enginesTurn, (fetch_displays_iff hfetch).mp (displays_of_fb_ne hexec hne)⟩
  · obtain ⟨hfb, -⟩ := hmove.keeps
    exact absurd hfb hne
  · exact .inl ⟨rom, rest, hsched⟩

/-- Settles O54: a Reset zeroes the timers, the Ticker and the Host never raise one, and an instruction that does set
it. -/
theorem timersFallBetweenSets : Obligations.TimersFallBetweenSets := by
  intro s t h
  obtain ⟨-, f, -, rfl⟩ | ⟨hs, i, hfetch, hexec⟩ | hmove | ⟨rom, rest, -, rfl⟩ := step_inversion h
  · exact ⟨fun hlt => absurd hlt (lt_irrefl _), fun hlt => absurd hlt (lt_irrefl _)⟩
  · refine ⟨fun hlt => ?_, fun hlt => ?_⟩
    · obtain ⟨x, rfl⟩ := setsDelay_of_dt_lt hexec hlt
      exact ⟨hs.enginesTurn, x, hfetch⟩
    · obtain ⟨x, rfl⟩ := setsSound_of_st_lt hexec hlt
      exact ⟨hs.enginesTurn, x, hfetch⟩
  · obtain ⟨-, -, -, hdt, hst⟩ := hmove.keeps
    exact ⟨fun hlt => absurd hlt (not_lt.mpr hdt), fun hlt => absurd hlt (not_lt.mpr hst)⟩
  · exact ⟨fun hlt => absurd hlt (Nat.not_lt_zero _), fun hlt => absurd hlt (Nat.not_lt_zero _)⟩

end Sys2Proof.Machine
end

section
/-! Where every instruction leaves `pc` (`40_execution_engine.md` section 2), the invariant of the whole machine
(section 4), and the obligations on them. -/

namespace Sys2Proof.Machine

/-! ### The advance after a range check, a skip and a wait (R124) -/

/-- An instruction with a range check that raises no fault has made its access. -/
theorem eq_access_of_unfaulted {s access t : State} {addr len : Nat} (h : afterCheck s addr len access = .next t)
    (ht : t.fault = none) : t = access := by
  obtain ⟨rfl, -⟩ | ⟨rfl, -⟩ := afterCheck_cases h
  · rfl
  · cases ht

theorem State.pc_skipIf_iff (s : State) {c : Bool} {P : Prop} (h : c = true ↔ P) :
    (P → (s.skipIf c).pc = s.pc + 4) ∧ (¬ P → (s.skipIf c).pc = s.pc + 2) :=
  ⟨fun hP => if_pos (h.mpr hP), fun hP => if_neg fun hc => hP (h.mp hc)⟩

/-- Settles O60: class by class, with the tests of the skips and of the wait as the conditions they decide. -/
theorem pcAdvancesByClass : Obligations.PcAdvancesByClass := by
  intro i s t hs h ht
  cases i with
  | ret =>
    obtain rfl | ⟨hpos, rfl⟩ := exec_ret_cases h
    · cases ht
    · exact ⟨hpos, rfl⟩
  | call nnn =>
    obtain rfl | ⟨hfree, rfl⟩ := exec_call_cases h
    · cases ht
    · exact toNat_zextAddr nnn
  | jump nnn => cases h; exact toNat_zextAddr nnn
  | jumpPlusV0 nnn => cases h; exact toNat_zextAddr_add_zextByte nnn (s.reg 0)
  | skipEqConst x nn => cases h; exact s.pc_skipIf_iff beq_iff_eq
  | skipNeqConst x nn => cases h; exact s.pc_skipIf_iff bne_iff_ne
  | skipEqReg x y => cases h; exact s.pc_skipIf_iff beq_iff_eq
  | skipNeqReg x y => cases h; exact s.pc_skipIf_iff bne_iff_ne
  | skipKeyPressed x => cases h; exact s.pc_skipIf_iff (s.pressed_iff _)
  | skipKeyNotPressed x =>
    cases h
    have htest : (!s.pressed (s.reg x)) = true ↔ ¬ s.KeyHeld (s.reg x) := by
      rw [Bool.not_eq_true', ← Bool.not_eq_true, State.pressed_iff]
    exact s.pc_skipIf_iff htest
  | awaitKey x =>
    cases h
    refine ⟨fun hheld => ?_, fun hnot => ?_⟩
    · rw [State.pressed_of_keyHeld hheld]; rfl
    · rw [State.pressed_of_not_keyHeld hnot]; rfl
  | draw _ _ _ | storeBCD _ | dumpRegs _ | loadRegs _ => rw [eq_access_of_unfaulted h ht]; rfl
  | _ => cases h; rfl

/-! ### The invariant -/

/-- The place a redirecting instruction goes to is a return address, an address field, or an address field and a
byte. -/
theorem redirect_le_pcMax {i : Instr} {s : State} {w : Word} (hs : s.Inv) (h : s.RedirectsTo w i) :
    w.toNat ≤ pcMax := by
  cases i with
  | ret =>
    obtain ⟨hpos, rfl⟩ := h
    have hdepth := s.sp.isLt
    exact (hs.stack (s.sp.val - 1) (by omega) (by omega)).trans (by decide)
  | jump nnn | call nnn =>
    have hw : w.toNat = nnn.toNat := h
    have hn := nnn.isLt
    rw [hw, pcMax]
    omega
  | jumpPlusV0 nnn =>
    have hw : w.toNat = nnn.toNat + (s.reg 0#4).toNat := h
    have hn := nnn.isLt
    have hb := (s.reg 0#4).isLt
    rw [hw, pcMax]
    omega
  | _ => exact h.elim

/-- An advance from a fetched instruction stays in bounds, since the fetch was inside memory. -/
theorem advance_le_pcMax {pc : Word} (hpc : pc.toNat + 2 ≤ Config.memSize) :
    (pc + 2).toNat ≤ pcMax ∧ (pc + 4).toNat ≤ pcMax := by
  simp only [Config.memSize, pcMax] at *
  exact ⟨by bv_omega, by bv_omega⟩

/-- An instruction fetched inside memory leaves `pc` in bounds: the fault entry keeps it, and otherwise its class says
where it goes. -/
theorem exec_pc_le {i : Instr} {s t : State} (hs : s.Inv) (hf : s.fault = none)
    (hpc : s.pc.toNat + 2 ≤ Config.memSize) (h : exec i s = .next t) : t.pc.toNat ≤ pcMax := by
  obtain ⟨f, rfl⟩ | hc := exec_cases h
  · exact hs.pc
  · obtain ⟨htwo, hfour⟩ := advance_le_pcMax hpc
    have hclass := pcAdvancesByClass i s t hf h (hc.fault.trans hf)
    cases hp : pcClassOf i <;> simp only [hp] at hclass
    case sequential => rw [hclass]; exact htwo
    case skip =>
      obtain ⟨hskip, hnot⟩ := hclass
      by_cases hcond : s.Condition i
      · rw [hskip hcond]; exact hfour
      · rw [hnot hcond]; exact htwo
    case wait =>
      obtain ⟨hgo, hstay⟩ := hclass
      by_cases hcond : s.Condition i
      · rw [hgo hcond]; exact htwo
      · rw [hstay hcond]; exact hs.pc
    case redirect => exact redirect_le_pcMax hs hclass

/-- The entries in use stay return addresses: Return drops one, Call adds the address after itself, no other
instruction touches them. -/
theorem exec_stack_le {i : Instr} {s t : State} (hs : s.Inv) (hpc : s.pc.toNat + 2 ≤ Config.memSize)
    (h : exec i s = .next t) (k : Nat) (hk : k < Config.stackDepth) (hused : k < t.sp.val) :
    (t.stack[k]'hk).toNat ≤ Config.memSize := by
  cases i with
  | ret =>
    obtain rfl | ⟨hpos, rfl⟩ := exec_ret_cases h
    · exact hs.stack k hk hused
    · have hlt : k < s.sp.val - 1 := hused
      exact hs.stack k hk (by omega)
  | call nnn =>
    obtain rfl | ⟨hfree, rfl⟩ := exec_call_cases h
    · exact hs.stack k hk hused
    · have hlt : k < s.sp.val + 1 := hused
      show ((s.stack.set s.sp.val (s.pc + 2) hfree)[k]).toNat ≤ Config.memSize
      obtain rfl | hne := eq_or_ne s.sp.val k
      · rw [Vector.getElem_set_self hfree]
        simp only [Config.memSize] at *
        bv_omega
      · rw [Vector.getElem_set_ne hfree hk hne]
        exact hs.stack k hk (by omega)
  | _ =>
    have hsp : t.sp = s.sp := exec_sameBut h .depth (by simp [State.MayWrite])
    have hentry : t.stack[k] = s.stack[k] := exec_sameBut h (.stackEntry ⟨k, hk⟩) (by simp [State.MayWrite])
    rw [hentry]
    exact hs.stack k hk (hsp ▸ hused)

theorem afterCheck_mem_wf {s access t : State} {addr len : Nat} (h : afterCheck s addr len access = .next t)
    (hs : s.mem.wf = true) (haccess : access.mem.wf = true) : t.mem.wf = true := by
  obtain ⟨rfl, -⟩ | ⟨rfl, -⟩ := afterCheck_cases h
  · exact haccess
  · exact hs

/-- Memory stays canonical: an instruction keeps it or writes one block. -/
theorem exec_mem_wf {i : Instr} {s t : State} (hs : s.mem.wf = true) (h : exec i s = .next t) :
    t.mem.wf = true := by
  cases i with
  | storeBCD _ | dumpRegs _ => exact afterCheck_mem_wf h hs (Memory.wf_writeList hs _ _)
  | draw _ _ _ | loadRegs _ => exact afterCheck_mem_wf h hs hs
  | ret => obtain rfl | ⟨hpos, rfl⟩ := exec_ret_cases h <;> exact hs
  | call nnn => obtain rfl | ⟨hfree, rfl⟩ := exec_call_cases h <;> exact hs
  | awaitKey x =>
    rw [exec_awaitKey] at h
    split at h <;> cases h <;> exact hs
  | _ => cases h; exact hs

/-- An instruction fetched inside memory keeps the invariant. -/
theorem exec_inv {i : Instr} {s t : State} (hs : s.Inv) (hf : s.fault = none) (hpc : s.pc.toNat + 2 ≤ Config.memSize)
    (h : exec i s = .next t) : t.Inv :=
  ⟨exec_mem_wf hs.mem h, exec_pc_le hs hf hpc h, exec_stack_le hs hpc h⟩

theorem State.Inv.raise {s : State} (hs : s.Inv) (f : FaultKind) : (s.raise f).Inv := ⟨hs.mem, hs.pc, hs.stack⟩

theorem State.Inv.afterTurn {s : State} (hs : s.Inv) : s.afterTurn.Inv := ⟨hs.mem, hs.pc, hs.stack⟩

theorem State.Inv.hostMove {s t : State} (hs : s.Inv) (h : s.HostMove t) : t.Inv := by
  obtain rfl | ⟨k, rfl⟩ | ⟨k, rfl⟩ | ⟨b, rfl⟩ := h <;> exact ⟨hs.mem, hs.pc, hs.stack⟩

/-- The entry point is in bounds (R251). -/
theorem romBase_le_pcMax : (512 : Word).toNat ≤ pcMax := by decide

/-- After Reset memory is the canonical reset memory with a block written, and no stack entry is in use. -/
theorem State.inv_hostReset (s : State) (rom : List Byte) : (s.hostReset rom).Inv :=
  ⟨Memory.wf_writeList Memory.wf_reset _ _, romBase_le_pcMax, fun k _ hused => absurd hused (Nat.not_lt_zero k)⟩

/-- A fetch that gives an instruction was inside memory. -/
theorem fetch_inside {s : State} {i : Instr} (h : s.fetch = .ok i) : s.pc.toNat + 2 ≤ Config.memSize := by
  obtain ⟨-, he⟩ | ⟨hpc, -⟩ | ⟨_, hpc, -⟩ := fetch_cases s
  · cases h.symm.trans he
  · exact hpc
  · exact hpc

/-! ### The obligations -/

/-- Settles O50: by what a transition can do; for a Step, the bound on the fetch bounds the advance and the return
address. -/
theorem invariantKeptByEveryStep : Obligations.InvariantKeptByEveryStep := by
  intro s t hs h
  obtain ⟨-, f, -, rfl⟩ | ⟨hready, i, hfetch, hexec⟩ | hmove | ⟨rom, rest, -, rfl⟩ := step_inversion h
  · exact hs.afterTurn.raise f
  · exact exec_inv hs.afterTurn hready.unfaulted (fetch_inside hfetch) hexec
  · exact hs.afterTurn.hostMove hmove
  · exact s.afterTurn.inv_hostReset rom

/-- Settles O49: no cell is listed, `pc` is 512 and no stack entry is in use. -/
theorem invariantHoldsAtReset : Obligations.InvariantHoldsAtReset :=
  ⟨Memory.wf_reset, romBase_le_pcMax, fun k _ hused => absurd hused (Nat.not_lt_zero k)⟩

end Sys2Proof.Machine
end

section
/-! What an instruction sees of the timers, the keys and the frame (`10_state.md` section 8, `45_display.md`, last
paragraph, `60_exceptions.md` section 8): an instruction run after a change of these components gives the changed
result, unless it uses them; and the obligations that are instances of this. -/

namespace Sys2Proof

/-- The three instructions that read or write a timer. -/
def Instr.usesTimers : Instr → Bool
  | .getDelay _ | .setDelay _ | .setSound _ => true
  | _ => false

/-- The three instructions that read the key set. -/
def Instr.readsKeys : Instr → Bool
  | .skipKeyPressed _ | .skipKeyNotPressed _ | .awaitKey _ => true
  | _ => false

theorem Instr.usesTimers_eq_false {i : Instr} (h : ∀ x, i ≠ .getDelay x ∧ i ≠ .setDelay x ∧ i ≠ .setSound x) :
    i.usesTimers = false := by
  cases i <;> simp [usesTimers] at h ⊢

theorem Instr.readsKeys_eq_false {i : Instr}
    (h : ∀ x, i ≠ .skipKeyPressed x ∧ i ≠ .skipKeyNotPressed x ∧ i ≠ .awaitKey x) : i.readsKeys = false := by
  cases i <;> simp [readsKeys] at h ⊢

end Sys2Proof

namespace Sys2Proof.Machine

/-- A change of the timers, the key set and the frame, each by itself. -/
structure Retouch where
  dt : Byte → Byte := id
  st : Byte → Byte := id
  keys : KeySet → KeySet := id
  fb : Frame → Frame := id

/-- The state with the change made. -/
def State.retouch (s : State) (r : Retouch) : State :=
  { s with dt := r.dt s.dt, st := r.st s.st, keys := r.keys s.keys, fb := r.fb s.fb }

/-- The change may be made before an instruction when the instruction uses none of what it changes. -/
structure Retouch.Unseen (r : Retouch) (i : Instr) : Prop where
  timers : i.usesTimers = true → r.dt = id ∧ r.st = id
  keys : i.readsKeys = true → r.keys = id
  frame : i.displays = true → r.fb = id

theorem afterCheck_retouch {s access t : State} {addr len : Nat} (r : Retouch)
    (h : afterCheck s addr len access = .next t) :
    afterCheck (s.retouch r) addr len (access.retouch r) = .next (t.retouch r) := by
  obtain ⟨rfl, hin⟩ | ⟨rfl, h0, hout⟩ := afterCheck_cases h
  · exact afterCheck_inside hin
  · exact afterCheck_outside h0 hout

/-- An instruction that uses none of what the change touches runs to the changed result. -/
theorem exec_retouch {i : Instr} {s t : State} {r : Retouch} (hr : r.Unseen i) (h : exec i s = .next t) :
    exec i (s.retouch r) = .next (t.retouch r) := by
  obtain ⟨dt, st, keys, fb⟩ := r
  obtain ⟨htimers, hkeys, hframe⟩ := hr
  cases i with
  | ret =>
    obtain h0 | hpos := Nat.eq_zero_or_pos s.sp.val
    · rw [exec_ret_empty h0] at h; cases h; exact exec_ret_empty (s := s.retouch _) h0
    · rw [exec_ret_ok hpos] at h; cases h; exact exec_ret_ok (s := s.retouch _) hpos
  | call nnn =>
    obtain hfree | hfull := Nat.lt_or_eq_of_le (Nat.le_of_lt_succ s.sp.isLt)
    · rw [exec_call_ok hfree] at h; cases h; exact exec_call_ok (s := s.retouch _) hfree nnn
    · rw [exec_call_full hfull] at h; cases h; exact exec_call_full (s := s.retouch _) hfull nnn
  | storeBCD _ | dumpRegs _ | loadRegs _ => exact afterCheck_retouch _ h
  | draw _ _ _ =>
    obtain rfl : fb = id := hframe rfl
    exact afterCheck_retouch _ h
  | clearScreen =>
    obtain rfl : fb = id := hframe rfl
    cases h
    rfl
  | getDelay _ | setDelay _ | setSound _ =>
    obtain ⟨rfl, rfl⟩ : dt = id ∧ st = id := htimers rfl
    cases h
    rfl
  | skipKeyPressed _ | skipKeyNotPressed _ =>
    obtain rfl : keys = id := hkeys rfl
    cases h
    rfl
  | awaitKey x =>
    obtain rfl : keys = id := hkeys rfl
    cases h
    have hsame : (s.retouch ⟨dt, st, id, fb⟩).pressed ((s.retouch ⟨dt, st, id, fb⟩).reg x) = s.pressed (s.reg x) := rfl
    rw [exec_awaitKey, hsame]
    split <;> rfl
  | _ => cases h; rfl

/-! ### The frame and Draw -/

/-- A Draw on another frame checks the same range, and differs in the frame, the Render history and `VF` alone. -/
theorem exec_draw_frame {x y n : Nibble} {s t : State} (f : Frame) (h : exec (.draw x y n) s = .next t) :
    ∃ u, exec (.draw x y n) { s with fb := f } = .next u ∧
      { u with fb := t.fb, renders := t.renders, v := t.v } = t ∧ ∀ k, u.reg k = t.reg k ∨ k = 15#4 := by
  obtain ⟨rfl, hin⟩ | ⟨rfl, h0, hout⟩ := afterCheck_cases h
  · refine ⟨_, afterCheck_inside hin, rfl, fun k => or_iff_not_imp_right.mpr fun hk => ?_⟩
    simp only [State.reg_advance, State.reg_emitRender, State.reg_setVF, if_neg hk, State.reg_setFB]
    rfl
  · exact ⟨_, afterCheck_outside h0 hout, rfl, fun k => .inl rfl⟩

/-! ### The obligations -/

/-- Settles O56: a Tick changes the timers only. -/
theorem tickCommutesWithTimerFreeInstructions : Obligations.TickCommutesWithTimerFreeInstructions := by
  intro i s t hi h
  have hfree := Instr.usesTimers_eq_false hi
  exact exec_retouch (r := { dt := tickDown, st := tickDown })
    ⟨fun huses => absurd huses (Bool.eq_false_iff.mp hfree), fun _ => rfl, fun _ => rfl⟩ h

/-- Settles O57: the key set put in place of another. -/
theorem keysSeenByKeyInstructionsOnly : Obligations.KeysSeenByKeyInstructionsOnly := by
  intro i s t ks hi h
  have hfree := Instr.readsKeys_eq_false hi
  exact exec_retouch (r := { keys := fun _ => ks })
    ⟨fun _ => ⟨rfl, rfl⟩, fun hreads => absurd hreads (Bool.eq_false_iff.mp hfree), fun _ => rfl⟩ h

/-- Settles O58: the frame put in place of another is seen by the two display instructions only; ClearScreen overwrites
it, and Draw is the case of its own. -/
theorem frameSeenByCollisionFlagOnly : Obligations.FrameSeenByCollisionFlagOnly := by
  intro i s t f h
  by_cases hd : i.displays = true
  · obtain rfl | ⟨x, y, n, rfl⟩ := i.displays_iff.mp hd
    · cases h
      exact ⟨_, exec_clearScreen _, rfl, fun k => .inl rfl⟩
    · obtain ⟨u, hu, hframe, hreg⟩ := exec_draw_frame f h
      exact ⟨u, hu, hframe, fun k => (hreg k).imp_right fun hk => ⟨hk, x, y, n, rfl⟩⟩
  · have hu := exec_retouch (r := { fb := fun _ => f })
      ⟨fun _ => ⟨rfl, rfl⟩, fun _ => rfl, fun hdisplays => absurd hdisplays hd⟩ h
    exact ⟨_, hu, rfl, fun k => .inl rfl⟩

end Sys2Proof.Machine
end

section
/-! The state after Reset (`10_state.md` section 16, `70_reset_and_hazards.md` section 1), the fetch of a word just
stored (`20_memory.md` section 8), and the obligations on them. -/

namespace Sys2Proof.Machine

/-! ### The reset contents (R40, R254) -/

theorem initByte_font {j : Nat} (h : j < font.length) : initByte (fontBase + j) = font[j] := by
  rw [initByte, if_pos (Nat.le_add_right fontBase j), Nat.add_sub_cancel_left, List.getD_eq_getElem _ _ h]

theorem initByte_outside_font {a : Nat} (h : a < fontBase ∨ fontBase + 80 ≤ a) : initByte a = 0 := by
  have hlen : font.length = 80 := rfl
  rw [initByte]
  split
  · exact List.getD_eq_default _ _ (by omega)
  · rfl

@[simp] theorem State.reg_reset (k : Nibble) : State.reset.reg k = 0 := Vector.getElem_replicate k.isLt

/-- Outside its ROM a Reset leaves the reset contents. -/
theorem State.read_hostReset_outside (s : State) {rom : List Byte} {a : Nat} (h : a < 512 ∨ 512 + rom.length ≤ a) :
    (s.hostReset rom).read a = initByte a := by
  rw [s.read_hostReset, Memory.read_writeList_outside _ _ _ h]
  rfl

/-! ### The obligations -/

/-- Settles O45: a Reset leaves the reset state but for the ROM, which touches neither the font nor the zeros. -/
theorem resetClearsEverythingElse : Obligations.ResetClearsEverythingElse := by
  intro s rom rest hfits h
  refine ⟨_, step_reset_of_fits h hfits, fun j hj => ?_, fun a hfont hrom => ?_, State.reg_reset, rfl, rfl,
    fun k => Vector.getElem_replicate k.isLt, rfl, rfl, fun k => BitVec.getLsbD_zero, fun k => BitVec.getLsbD_zero,
    rfl, rfl, rfl, rfl, ?_⟩
  · have hbelow : fontBase + j < 512 := (Nat.add_lt_add_left hj fontBase).trans_le font_below_rom
    exact (s.afterTurn.read_hostReset_outside (.inl hbelow)).trans (initByte_font hj)
  · exact (s.afterTurn.read_hostReset_outside hrom).trans (initByte_outside_font hfont)
  · show s.schedule.tail = rest
    rw [h]
    rfl

/-- Settles O47: the fields of the reset state, and its memory, in which no cell is listed. -/
theorem resetStateValues : Obligations.ResetStateValues := by
  refine ⟨rfl, State.reg_reset, rfl, rfl, rfl, rfl, rfl, rfl, rfl, rfl, fun a ha => ?_, rfl⟩
  have habove : fontBase + 80 ≤ a := Nat.le_trans font_below_rom ha
  exact initByte_outside_font (.inr habove)

/-- Settles O33: the DumpRegs leaves `pc` at `I`, where the first two bytes of its block are. -/
theorem storedWordIsFetchedNext : Obligations.StoredWordIsFetchedNext := by
  intro s x hs hm hfetch hx hi hin
  obtain ⟨-, -, hstores⟩ := dumpRegsStoresBlock s.afterTurn x
  obtain ⟨t, ht, hread, hpc, -⟩ := hstores hm hin
  have hti : t.pc = s.i := hpc.trans hi.symm
  refine ⟨t, (step_fetch_ok hs hfetch).trans ht, ?_⟩
  rw [State.fetchWord, hti]
  exact congrArg₂ wordOfBytes (hread 0#4 (Nat.zero_le _)) (hread 1#4 hx)

end Sys2Proof.Machine
end

section
/-! Draw (`45_display.md`): the list of cells a sprite inverts, each at most once; what inverting the cells of a list
does to the frame and to the collision flag; and the obligations on Draw. -/

namespace Sys2Proof.Machine

/-! ### The cells of a sprite (R191, R192) -/

/-- The cells under the 1 bits of the rows `r`, `r + 1`, …, in the order they are inverted. -/
def spriteCells (ox oy : Nat) : Nat → List Byte → List Nat
  | _, [] => []
  | r, b :: bs => ((List.range 8).filter (spriteBit b)).map (pixelIndex ox oy r) ++ spriteCells ox oy (r + 1) bs

/-- Drawing the rows of a sprite inverts its cells one after the other. -/
theorem rows_eq_foldl_flip (ox oy r : Nat) (bs : List Byte) (d : Drawing) :
    Drawing.rows ox oy r bs d = (spriteCells ox oy r bs).foldl Drawing.flip d := by
  induction bs generalizing r d with
  | nil => rfl
  | cons b bs ih =>
    rw [Drawing.rows, ih, spriteCells, List.foldl_append, List.foldl_map, List.foldl_filter]
    rfl

theorem mem_spriteCells {ox oy r k : Nat} {bs : List Byte} :
    k ∈ spriteCells ox oy r bs ↔
      ∃ j, ∃ h : j < bs.length, ∃ c < 8, spriteBit bs[j] c = true ∧ k = pixelIndex ox oy (r + j) c := by
  induction bs generalizing r with
  | nil => simp [spriteCells]
  | cons b bs ih =>
    rw [spriteCells, List.mem_append, ih]
    constructor
    · rintro (h | ⟨j, hj, c, hc, hbit, rfl⟩)
      · obtain ⟨c, hmem, rfl⟩ := List.mem_map.mp h
        obtain ⟨hc, hbit⟩ := List.mem_filter.mp hmem
        exact ⟨0, Nat.succ_pos _, c, List.mem_range.mp hc, hbit, rfl⟩
      · exact ⟨j + 1, Nat.succ_lt_succ hj, c, hc, hbit, by rw [Nat.add_right_comm, Nat.add_assoc]⟩
    · rintro ⟨j, hj, c, hc, hbit, rfl⟩
      cases j with
      | zero => exact .inl (List.mem_map_of_mem (List.mem_filter.mpr ⟨List.mem_range.mpr hc, hbit⟩))
      | succ j =>
        exact .inr ⟨j, Nat.lt_of_succ_lt_succ hj, c, hc, hbit, by rw [Nat.add_right_comm, Nat.add_assoc]⟩

/-- The cell in column `px`, row `py` is the pixel of a sprite bit exactly when both coordinates are. -/
theorem eq_pixelIndex_iff {ox oy r c px py : Nat} (hpx : px < 64) :
    py * 64 + px = pixelIndex ox oy r c ↔ py = (oy + r) % 32 ∧ px = (ox + c) % 64 := by
  simp only [pixelIndex, Config.fbHeight, Config.fbWidth]
  omega

/-- Fewer than 32 rows and 8 columns do not meet themselves around the edges. -/
theorem pixelIndex_inj {ox oy r r' c c' : Nat} (hr : r ≤ r') (hr' : r' < r + 32) (hc : c < 8) (hc' : c' < 8)
    (h : pixelIndex ox oy r c = pixelIndex ox oy r' c') : r = r' ∧ c = c' := by
  simp only [pixelIndex, Config.fbHeight, Config.fbWidth] at h
  omega

/-- A sprite of at most 32 rows has no cell twice. -/
theorem nodup_spriteCells {ox oy r : Nat} {bs : List Byte} (h : bs.length ≤ 32) : (spriteCells ox oy r bs).Nodup := by
  induction bs generalizing r with
  | nil => exact List.nodup_nil
  | cons b bs ih =>
    rw [List.length_cons] at h
    refine List.Nodup.append ?_ (ih (by omega)) ?_
    · refine List.Nodup.map_on (fun c hc c' hc' he => ?_) (List.nodup_range.filter _)
      have hlt := List.mem_range.mp (List.mem_filter.mp hc).1
      have hlt' := List.mem_range.mp (List.mem_filter.mp hc').1
      exact (pixelIndex_inj le_rfl (by omega) hlt hlt' he).2
    · intro k hk hk'
      obtain ⟨c, hc, rfl⟩ := List.mem_map.mp hk
      have hlt := List.mem_range.mp (List.mem_filter.mp hc).1
      obtain ⟨j, hj, c', hc', -, he⟩ := mem_spriteCells.mp hk'
      have hrow := (pixelIndex_inj (by omega) (by omega) hlt hc' he).1
      omega

/-! ### Inverting the cells of a list -/

/-- Inverting distinct cells inverts those cells and no other. -/
theorem getLsbD_foldl_flip {cells : List Nat} (hnodup : cells.Nodup) (hlt : ∀ k ∈ cells, k < 2048) (d : Drawing)
    (k : Nat) : (cells.foldl Drawing.flip d).frame.getLsbD k = (d.frame.getLsbD k ^^ decide (k ∈ cells)) := by
  induction cells generalizing d with
  | nil => simp
  | cons c cells ih =>
    obtain ⟨hfresh, hnodup⟩ := List.nodup_cons.mp hnodup
    rw [List.foldl_cons, ih hnodup fun j hj => hlt j (List.mem_cons_of_mem c hj),
      getLsbD_flip d c k (hlt c List.mem_cons_self)]
    by_cases hk : k = c
    · subst hk; simp [hfresh]
    · simp [hk]

/-- Inverting distinct cells is a collision exactly when one of them was on. -/
theorem hit_foldl_flip {cells : List Nat} (hnodup : cells.Nodup) (hlt : ∀ k ∈ cells, k < 2048) (d : Drawing) :
    (cells.foldl Drawing.flip d).hit = true ↔ d.hit = true ∨ ∃ k ∈ cells, d.frame.getLsbD k = true := by
  induction cells generalizing d with
  | nil => simp
  | cons c cells ih =>
    obtain ⟨hfresh, hnodup⟩ := List.nodup_cons.mp hnodup
    have hkeep : ∀ k ∈ cells, (d.flip c).frame.getLsbD k = d.frame.getLsbD k := fun k hk => by
      have hne : k ≠ c := fun e => hfresh (e ▸ hk)
      simp [getLsbD_flip d c k (hlt c List.mem_cons_self), hne]
    rw [List.foldl_cons, ih hnodup fun j hj => hlt j (List.mem_cons_of_mem c hj), hit_flip, Bool.or_eq_true, or_assoc,
      List.exists_mem_cons_iff, exists_congr fun k => and_congr_right fun hk => by rw [hkeep k hk]]

/-! ### A sprite drawn on the frame of a state -/

/-- The cells that the sprite of `n` rows at `I` inverts with the origin `(ox, oy)`. -/
def State.cells (s : State) (ox oy : Byte) (n : Nibble) : List Nat :=
  spriteCells ox.toNat oy.toNat 0 (s.spriteRows n.toNat)

section
variable (s : State) (ox oy : Byte) (n : Nibble)

theorem State.mem_cells {k : Nat} :
    k ∈ s.cells ox oy n ↔ ∃ r < n.toNat, ∃ c < 8, (s.read (s.i.toNat + r)).getLsbD (7 - c) = true ∧
      k = pixelIndex ox.toNat oy.toNat r c := by
  simp only [State.cells, mem_spriteCells, getElem_spriteRows, length_spriteRows, exists_prop, Nat.zero_add]
  rfl

theorem State.lt_of_mem_cells {k : Nat} (h : k ∈ s.cells ox oy n) : k < 2048 := by
  obtain ⟨r, -, c, -, -, rfl⟩ := (s.mem_cells ox oy n).mp h
  exact pixelIndex_lt _ _ r c

theorem State.nodup_cells : (s.cells ox oy n).Nodup := by
  have hn := n.isLt
  exact nodup_spriteCells (by rw [length_spriteRows]; omega)

/-- The cell of a pixel is among them exactly when the sprite covers the pixel. -/
theorem State.pixel_mem_cells_iff {px py : Nat} (hpx : px < 64) :
    py * 64 + px ∈ s.cells ox oy n ↔ s.Covers ox.toNat oy.toNat n.toNat px py := by
  simp only [State.mem_cells, eq_pixelIndex_iff hpx, State.Covers]

theorem State.getLsbD_drawSprite (k : Nat) :
    (s.drawSprite ox oy n.toNat).frame.getLsbD k = (s.fb.getLsbD k ^^ decide (k ∈ s.cells ox oy n)) := by
  rw [State.drawSprite, rows_eq_foldl_flip]
  exact getLsbD_foldl_flip (s.nodup_cells ox oy n) (fun _ => s.lt_of_mem_cells ox oy n) ⟨s.fb, false⟩ k

theorem State.hit_drawSprite :
    (s.drawSprite ox oy n.toNat).hit = true ↔ ∃ k ∈ s.cells ox oy n, s.fb.getLsbD k = true := by
  rw [State.drawSprite, rows_eq_foldl_flip]
  exact (hit_foldl_flip (s.nodup_cells ox oy n) (fun _ => s.lt_of_mem_cells ox oy n) ⟨s.fb, false⟩).trans
    (or_iff_right Bool.false_ne_true)

/-- A cell of the sprite was on exactly when a covered pixel was. -/
theorem State.exists_cell_on_iff :
    (∃ k ∈ s.cells ox oy n, s.fb.getLsbD k = true) ↔
      ∃ px < 64, ∃ py < 32, s.fb.getLsbD (py * 64 + px) = true ∧ s.Covers ox.toNat oy.toNat n.toNat px py := by
  constructor
  · rintro ⟨k, hk, hon⟩
    have hlt := s.lt_of_mem_cells ox oy n hk
    have hpx : k % 64 < 64 := Nat.mod_lt k (by decide)
    have hsplit : k / 64 * 64 + k % 64 = k := Nat.div_add_mod' k 64
    exact ⟨k % 64, hpx, k / 64, by omega, by rw [hsplit, hon],
      (s.pixel_mem_cells_iff ox oy n hpx).mp (by rwa [hsplit])⟩
  · rintro ⟨px, hpx, py, -, hon, hcovers⟩
    exact ⟨_, (s.pixel_mem_cells_iff ox oy n hpx).mpr hcovers, hon⟩

end

/-! ### The instruction -/

/-- The drawing of a Draw that completes. -/
def State.drawing (s : State) (x y n : Nibble) : Drawing := s.drawSprite (s.reg x) (s.reg y) n.toNat

/-- The state after a Draw that completes. -/
def State.drawn (s : State) (x y n : Nibble) : State :=
  ((s.setFB (s.drawing x y n).frame).setVF (s.drawing x y n).hit).emitRender.advance

theorem exec_draw_inside {s : State} {n : Nibble} (h : n.toNat = 0 ∨ s.i.toNat + n.toNat - 1 ≤ 4095) (x y : Nibble) :
    exec (.draw x y n) s = .next (s.drawn x y n) := by
  refine afterCheck_inside (h.imp_right fun hin => ?_)
  show s.i.toNat + n.toNat ≤ 4096
  omega

section
variable (s : State) (x y n : Nibble)

@[simp] theorem State.fb_drawn : (s.drawn x y n).fb = (s.drawing x y n).frame := rfl

theorem State.reg_drawn_vf : (s.drawn x y n).reg 15#4 = if (s.drawing x y n).hit then 1 else 0 := by
  rw [State.drawn, State.reg_advance, State.reg_emitRender, State.reg_setVF, if_pos rfl]

theorem State.reg_drawn_vf_eq_one_iff : (s.drawn x y n).reg 15#4 = 1 ↔ (s.drawing x y n).hit = true := by
  rw [s.reg_drawn_vf]
  cases (s.drawing x y n).hit <;> decide

theorem State.reg_drawn_of_ne {k : Nibble} (hk : k ≠ 15#4) : (s.drawn x y n).reg k = s.reg k := by
  rw [State.drawn, State.reg_advance, State.reg_emitRender, State.reg_setVF, if_neg hk, State.reg_setFB]

/-- A cell that is on after a Draw was off before it exactly when it is a cell of the sprite. -/
theorem State.turned_on_iff {k : Nat} (hon : (s.drawn x y n).fb.getLsbD k = true) :
    s.fb.getLsbD k = false ↔ k ∈ s.cells (s.reg x) (s.reg y) n := by
  have hbit : (s.drawn x y n).fb.getLsbD k = _ := s.getLsbD_drawSprite (s.reg x) (s.reg y) n k
  rw [hbit] at hon
  cases hk : s.fb.getLsbD k <;> simpa [hk] using hon

/-- A second equal Draw has the same cells, since the first keeps memory, `I` and both coordinates. -/
theorem State.cells_drawn {ox oy : Byte} : (s.drawn x y n).cells ox oy n = s.cells ox oy n := rfl

end

/-! ### The obligations -/

/-- Settles O35: the frame is inverted at the cells of the sprite, which are the covered pixels, and the flag tells
whether one of them was on. -/
theorem drawXorsSpriteAndFlagsCollision : Obligations.DrawXorsSpriteAndFlagsCollision := by
  intro s x y n
  refine ⟨?_, fun h0 h => exec_draw_outside h0 h x y, fun hin => ?_⟩
  · rw [WordIs, ofNat_eq_wordXYN (base := 0xD000) (a := 0xD) rfl, decodeWord_draw]
  · refine ⟨_, exec_draw_inside hin x y, fun px hpx py _ => ?_, fun hon => ?_, fun hoff => ?_, rfl, rfl,
      fun c hc => ?_⟩
    · have hbit : (s.drawn x y n).fb.getLsbD (py * 64 + px) = _ :=
        s.getLsbD_drawSprite (s.reg x) (s.reg y) n (py * 64 + px)
      rw [hbit, ← s.pixel_mem_cells_iff _ _ _ hpx]
      cases s.fb.getLsbD (py * 64 + px) <;> simp
    · have hhit : (s.drawing x y n).hit = true := (s.hit_drawSprite _ _ n).mpr ((s.exists_cell_on_iff _ _ n).mpr hon)
      rw [s.reg_drawn_vf, if_pos hhit]
    · have hmiss : ¬ (s.drawing x y n).hit = true := fun hhit =>
        hoff ((s.exists_cell_on_iff _ _ n).mp ((s.hit_drawSprite _ _ n).mp hhit))
      rw [s.reg_drawn_vf, if_neg hmiss]
    · refine (((s.sameBut_setFB _).setReg 15#4 _).emitRender.setPc _) c fun hmay => hc ?_
      exact hmay.imp_right (Or.imp_right Or.symm)

/-- Settles O36: the second Draw inverts the same cells, and one of them is then on exactly when the first turned it
on. -/
theorem secondDrawRestoresFrame : Obligations.SecondDrawRestoresFrame := by
  intro s t x y n hx hy hin h
  rw [exec_draw_inside hin] at h
  cases h
  have hsame : (s.drawn x y n).drawing x y n = (s.drawn x y n).drawSprite (s.reg x) (s.reg y) n.toNat := by
    rw [State.drawing, s.reg_drawn_of_ne x y n hx, s.reg_drawn_of_ne x y n hy]
  refine ⟨_, exec_draw_inside (s := s.drawn x y n) hin x y, BitVec.eq_of_getLsbD_eq fun k _ => ?_, ?_, ?_⟩
  · have hfirst : (s.drawn x y n).fb.getLsbD k = _ := s.getLsbD_drawSprite (s.reg x) (s.reg y) n k
    rw [State.fb_drawn, hsame, State.getLsbD_drawSprite, State.cells_drawn, hfirst, Bool.xor_assoc, Bool.xor_self,
      Bool.xor_false]
  · rw [State.reg_drawn_vf_eq_one_iff, hsame, State.hit_drawSprite, State.cells_drawn]
    refine exists_congr fun k => and_congr_left fun hon => ?_
    exact (s.turned_on_iff x y n hon).symm
  · rw [State.reg_drawn_vf]
    exact ite_eq_or_eq _ _ _

end Sys2Proof.Machine
end
